-- ==== Sys2Proof/Word.lean ====
section
/-! DEFINITION. The words of the block: raw bits, payloads, identifiers. Everything is unsigned (00_scope.md R7). A command
word (30_encoding.md R61) has `4 + TICK_W` bits, which depends on a parameter, and is only taken apart into fields: it is a
plain `Nat` with bit 0 its least significant bit, and the decoder checks its width. Ticks, indices and counts are `Nat`
too. -/

namespace Sys2Proof

/-- A raw bit of the RawBitBuffer, a pin level, a one-bit verdict: 1 is `true` (00_scope.md R7, R9). -/
abbrev Bit := Bool

/-- A Payload: 64 bits, bit 63 the earliest in time (30_encoding.md R55). -/
abbrev Payload := BitVec 64

/-- A tag identifier: 32 bits (30_encoding.md R58). -/
abbrev TagId := BitVec 32

end Sys2Proof
end

