-- ==== Sys2Proof/Config.lean ====
section
/-! DEFINITION. The parameters of 00_scope.md R5: the two OPEN ones as a structure that a machine state carries, and
the numbers the source fixes. -/

namespace Sys2Proof

/-- The two OPEN parameters of 00_scope.md R5. They are fixed for a machine and no operation changes them; a state
carries them so that a statement over all states speaks about every choice (notes/assumptions/1.md). -/
structure Config where
  /-- `CAP`: capacity of the RawBitBuffer in bits. -/
  cap : Nat
  /-- `TICK_W`: width in bits of the unsigned elapsed-tick input. -/
  tickW : Nat
  deriving DecidableEq, Repr

namespace Config

/-- The least capacity: a decode may start at `CAP - NEAR_FULL` and an extraction needs 128 bits (R5). -/
def capMin : Nat := 138

/-- The least tick width: 4000 must be representable (R5). -/
def tickWMin : Nat := 12

/-- The constraints of R5 on the OPEN parameters: `138 <= CAP` and `TICK_W >= 12`. -/
abbrev wf (c : Config) : Prop := capMin ≤ c.cap ∧ tickWMin ≤ c.tickW

/-- The spec's defaults (R5, 92_eei_decisions.md D2 and D3), used by the opcode table and the test vectors. -/
def standard : Config := { cap := 256, tickW := 16 }

/-- Exclusive lower bound of the short window, `SHORT_LO` (R5). -/
def shortLo : Nat := 900
/-- Exclusive upper bound of the short window, `SHORT_HI` (R5). -/
def shortHi : Nat := 1900
/-- Exclusive lower bound of the long window, `LONG_LO` (R5). -/
def longLo : Nat := 2000
/-- Exclusive upper bound of the long window, `LONG_HI` (R5). -/
def longHi : Nat := 4000

/-- `NEAR_FULL`: distance from capacity at which a decode is triggered (R5). -/
def nearFull : Nat := 10

/-- `HDR_LEN`: length of the raw header pattern in bits (R5). -/
def hdrLen : Nat := 18

/-- `HDR`: the header constant, `HDR[i] = i mod 2` (R5, 30_encoding.md R54). -/
def hdr : BitVec 18 := 0b101010101010101010#18

/-- `RAW_PER_FRAME`: raw bits consumed by one extraction (R5). -/
def rawPerFrame : Nat := 128

/-- `N_ROWS`: data rows in a frame (R5). -/
def nRows : Nat := 10

/-- The fill level at which POLL starts a decode, `CAP - NEAR_FULL` (45_orchestrator_and_host_ops.md R121). -/
def threshold (c : Config) : Nat := c.cap - nearFull

end Config

end Sys2Proof
end

