-- ==== Sys2Proof/Syntax.lean ====
section
/-! DEFINITION. The five host-visible operations of 30_encoding.md R60, one constructor per row of
spec/opcode_table.json. -/

namespace Sys2Proof

/-- The operations of the block's boundary surface (30_encoding.md R60). -/
inductive Instr where
  /-- EDGE: a detected pin transition, with the level after it and the ticks elapsed since the one before
  (40_edge_sampler.md R70). `ticks` is an unsigned number that is only compared; its width is a matter of the
  command word (`Instr.wf`). -/
  | edge (level : Bit) (ticks : Nat)
  /-- POLL: is a tag ready (45_orchestrator_and_host_ops.md R120). -/
  | poll
  /-- READ_ID: the 32-bit identifier of the stored record (R130). -/
  | readId
  /-- READ_RAW: the 64-bit payload of the stored record (R131). -/
  | readRaw
  /-- CLEAR: empty the stored record (R132). -/
  | clear
  deriving DecidableEq, Repr

/-- The two execution contexts (20_memory.md R38). -/
inductive Agent where
  /-- The asynchronous edge-notification handler. -/
  | edgeHandler
  /-- The cooperative foreground poller. -/
  | foreground
  deriving DecidableEq, Repr

/-- Which context issues an operation (30_encoding.md R60, column "kind"). -/
def Instr.agent : Instr → Agent
  | .edge _ _ => .edgeHandler
  | .poll => .foreground
  | .readId => .foreground
  | .readRaw => .foreground
  | .clear => .foreground

end Sys2Proof
end

