-- ==== Sys2Proof/WellFormed.lean ====
section
/-! DEFINITION. Which operations have a command word: the operands must fit the fields of 30_encoding.md R61. -/

namespace Sys2Proof

/-- `ticks` fits the `TICK_W` bits of its field (30_encoding.md R50, R61); the other operands have no bound to
check. -/
def Instr.wf (tickW : Nat) : Instr → Bool
  | .edge _ ticks => decide (ticks < 2 ^ tickW)
  | .poll => true
  | .readId => true
  | .readRaw => true
  | .clear => true

end Sys2Proof
end

