-- ==== Sys2Proof/Decode.lean ====
section
/-! DEFINITION. Command words to operations and back (30_encoding.md R61, R62, R64). Decoding is total on numbers and
rejects by name. -/

namespace Sys2Proof

/-- Why a word is no operation (30_encoding.md R64). -/
inductive Reserved where
  /-- `op` is 101, 110 or 111. -/
  | op (op : Nat)
  /-- `op` is 001 to 100 and the `level` or the `ticks` field is not zero. -/
  | operandBits (op : Nat)
  /-- The number has more than `4 + TICK_W` bits, so it is no command word at all. -/
  | tooWide
  deriving DecidableEq, Repr

/-- The three-bit field `op = cmd[TICK_W+3 : TICK_W+1]` of R61, with whatever lies above it. -/
def opField (tickW w : Nat) : Nat := w / 2 ^ (tickW + 1)

/-- The one-bit field `level = cmd[TICK_W]` of R61. -/
def levelField (tickW w : Nat) : Bit := w / 2 ^ tickW % 2 == 1

/-- The field `ticks = cmd[TICK_W-1 : 0]` of R61. -/
def ticksField (tickW w : Nat) : Nat := w % 2 ^ tickW

/-- An operation without operands requires `level = 0` and `ticks = 0` (R62). -/
def noOperands (tickW w : Nat) (i : Instr) : Except Reserved Instr :=
  if w % 2 ^ (tickW + 1) = 0 then .ok i else .error (.operandBits (opField tickW w))

/-- The operation a command word stands for (R62), or why it stands for none (R64). -/
def decode (tickW w : Nat) : Except Reserved Instr :=
  match opField tickW w with
  | 0 => .ok (.edge (levelField tickW w) (ticksField tickW w))
  | 1 => noOperands tickW w .poll
  | 2 => noOperands tickW w .readId
  | 3 => noOperands tickW w .readRaw
  | 4 => noOperands tickW w .clear
  | 5 => .error (.op 5)
  | 6 => .error (.op 6)
  | 7 => .error (.op 7)
  | _ => .error .tooWide

/-- The operation codes of R62. -/
def Instr.opcode : Instr → Nat
  | .edge _ _ => 0
  | .poll => 1
  | .readId => 2
  | .readRaw => 3
  | .clear => 4

/-- The low `TICK_W + 1` bits of the command word: `level` above `ticks` (R61), zero for an operation without
operands (R62). -/
def Instr.operandField (tickW : Nat) : Instr → Nat
  | .edge level ticks => level.toNat * 2 ^ tickW + ticks
  | .poll => 0
  | .readId => 0
  | .readRaw => 0
  | .clear => 0

/-- The command word of an operation: `op` in the top three bits, then `level`, then `ticks` (R61, R62). -/
def encode (tickW : Nat) (i : Instr) : Nat :=
  i.opcode * 2 ^ (tickW + 1) + i.operandField tickW

/-- The decoder on a word whose bits are numbered as spec/opcode_table.json numbers them, that is for `TICK_W = 16`
(30_encoding.md R62); bits at and above `nbits` are 0. -/
def decodeTableWord (nbits w : Nat) : Option Instr :=
  (decode Config.standard.tickW (w % 2 ^ nbits)).toOption

/-- A row of the operation table of R62: the mask and the match value of its 20-bit words. -/
structure OpcodeRow where
  /-- The row's mnemonic. -/
  mnemonic : String
  /-- The bits the row fixes. -/
  mask : BitVec 20
  /-- Their values. -/
  matchValue : BitVec 20
  deriving DecidableEq, Repr

/-- The table of R62 (spec/opcode_table.json), `TICK_W = 16`. -/
def opcodeTable : List OpcodeRow :=
  [ { mnemonic := "EDGE",     mask := 0xE0000#20, matchValue := 0x00000#20 },
    { mnemonic := "POLL",     mask := 0xFFFFF#20, matchValue := 0x20000#20 },
    { mnemonic := "READ_ID",  mask := 0xFFFFF#20, matchValue := 0x40000#20 },
    { mnemonic := "READ_RAW", mask := 0xFFFFF#20, matchValue := 0x60000#20 },
    { mnemonic := "CLEAR",    mask := 0xFFFFF#20, matchValue := 0x80000#20 } ]

/-- An operation's mnemonic in the table of R62. -/
def Instr.mnemonic : Instr → String
  | .edge _ _ => "EDGE"
  | .poll => "POLL"
  | .readId => "READ_ID"
  | .readRaw => "READ_RAW"
  | .clear => "CLEAR"

end Sys2Proof
end

