-- ==== Sys2Proof/Machine/State.lean ====
section
/-! DEFINITION. The block's state (10_state.md R10), the model's own fields beside it, the reasons a step can stop, and
the state after power-up reset (10_state.md R25). -/

namespace Sys2Proof.Machine

/-- The orchestrator's state (10_state.md R14). -/
inductive OrchState where
  | idle
  | decoding
  deriving DecidableEq, Repr

/-- What a foreground operation returns to its caller (30_encoding.md R63). -/
inductive Result where
  /-- Nothing was returned: CLEAR, and before the first foreground operation. -/
  | nothing
  /-- POLL's bit `ready`. -/
  | ready (b : Bit)
  /-- READ_ID's 32 bits. -/
  | id (w : TagId)
  /-- READ_RAW's 64 bits. -/
  | raw (w : Payload)
  deriving DecidableEq, Repr

/-- The RawBitBuffer as the list of its cells (index, bit), in the canonical form `Memory.wf` of Machine/Ops.lean:
indices strictly rising, no cell that holds what an unlisted index reads as. The unit of addressing is one bit
(20_memory.md R30), so a cell holds a bit and not a byte (notes/assumptions/2.md). -/
abbrev Memory := List (Nat × Bit)

/-- Why the machine could stop with a fault. There is no constructor, because nothing in the block is a fault: "There
are no fatal error paths in this core" (60_exceptions.md R144). Safe and unsafe do not arise. -/
inductive Fault where
  deriving DecidableEq, Repr

/-- Why the model gives an input no meaning. -/
inductive Refusal where
  /-- Raised by no arm of `exec`: every operation of the table has its meaning. Safe. -/
  | notModelled (mnemonic : String)
  /-- Raised by `step` on a reserved command word (30_encoding.md R64, 93_implementation_defined.md U12). Safe: the
  model stops where the block's behaviour is not defined. -/
  | reserved (why : Reserved)
  /-- Raised by the split machine only (Machine/SplitPoll.lean), on a foreground operation issued while a POLL is in
  progress (93_implementation_defined.md U13, 20_memory.md R41). Safe: the spec defines no behaviour there. -/
  | foregroundBusy
  deriving DecidableEq, Repr

/-- The machine's state. `raw`, `cursor`, `samplerEn`, `orchState`, `tagId`, `tagRaw` are the whole architectural state
of the block (10_state.md R10 to R16); `cfg`, `result` and `pending` are the model's own (notes/assumptions/1.md,
4.md, 5.md). -/
structure State where
  /-- The OPEN parameters (00_scope.md R5); no operation writes them. -/
  cfg : Config
  /-- `raw`, the RawBitBuffer (R11). -/
  raw : Memory
  /-- `cursor`, the write index and fill level (R12). -/
  cursor : Nat
  /-- `sampler_en`: the Edge Sampler accepts edge events (R13). -/
  samplerEn : Bit
  /-- `orch_state` (R14). -/
  orchState : OrchState
  /-- `tag_id` of the TagRecord (R15). -/
  tagId : TagId
  /-- `tag_raw` of the TagRecord (R16). -/
  tagRaw : Payload
  /-- What the last foreground operation returned (30_encoding.md R63). -/
  result : Result
  /-- The command words issued and not yet run, oldest first: the interleaving of the two agents (20_memory.md R40). -/
  pending : List Nat
  deriving DecidableEq, Repr

/-- The state after power-up reset of a block with the parameters `c` (10_state.md R25, 70_reset_and_hazards.md
R160). -/
def State.resetWith (c : Config) : State where
  cfg := c
  raw := []
  cursor := 0
  samplerEn := true
  orchState := .idle
  tagId := 0#32
  tagRaw := 0#64
  result := .nothing
  pending := []

/-- The state after power-up reset with the spec's default parameters (R5, R25). -/
def State.reset : State := State.resetWith Config.standard

end Sys2Proof.Machine
end

