-- ==== Sys2Proof/Machine/Ops.lean ====
section
/-! DEFINITION. The named operations over the RawBitBuffer and over the state elements. Every write of a state element
by an operation of the block goes through one of these. The block takes no exception and returns from none: it "saves no
state on entry, switches no mode, no stack and no mask" (60_exceptions.md R144, R146), so there is no such operation
here. -/

namespace Sys2Proof.Machine

/-! ## The RawBitBuffer as memory -/

/-- What an index that no cell lists reads as: 0, the reset and cleared content of `raw` (10_state.md R21, R25). -/
def Memory.unlisted : Bit := false

/-- The canonical form: indices strictly rising, no cell equal to what an unlisted index reads as. -/
abbrev Memory.wf (m : Memory) : Prop :=
  m.Pairwise (fun c d => c.1 < d.1) ∧ ∀ c ∈ m, c.2 ≠ Memory.unlisted

/-- `raw[a]`, one bit (00_scope.md R7, `MemRead(a, 1)`); reading has no side effect (20_memory.md R36). -/
def Memory.read : Memory → Nat → Bit
  | [], _ => Memory.unlisted
  | (b, v) :: m, a => if a = b then v else Memory.read m a

/-- A cell for the bit `v` at `a` in front of `m`, unless that is what an unlisted index reads as. -/
def Memory.consCell (a : Nat) (v : Bit) (m : Memory) : Memory :=
  if v = Memory.unlisted then m else (a, v) :: m

/-- `raw[a] <- v`, one bit (00_scope.md R7, `MemWrite(a, 1, v)`), keeping the canonical form. -/
def Memory.write : Memory → Nat → Bit → Memory
  | [], a, v => Memory.consCell a v []
  | (b, u) :: m, a, v =>
    if a < b then Memory.consCell a v ((b, u) :: m)
    else if a = b then Memory.consCell a v m
    else (b, u) :: Memory.write m a v

/-- Every bit 0 (45_orchestrator_and_host_ops.md R126). -/
def Memory.cleared : Memory := []

/-- The buffer that holds the bits of the list from index `start` up, and 0 elsewhere (95_test_vectors.md, the
convention of 2.3). -/
def Memory.ofBits (start : Nat) : List Bit → Memory
  | [] => Memory.cleared
  | b :: bs => Memory.consCell start b (Memory.ofBits (start + 1) bs)

/-! ## Writes of the state elements -/

/-- Entering Decoding: `orch_state <- Decoding; sampler_en <- 0` (45_orchestrator_and_host_ops.md R122). -/
def State.enterDecoding (s : State) : State := { s with orchState := .decoding, samplerEn := false }

/-- The TagRecord is written, both fields together (R125, R132). -/
def State.setRecord (id : TagId) (payload : Payload) (s : State) : State := { s with tagId := id, tagRaw := payload }

/-- The clear on leaving Decoding: every `raw[i] <- 0`, `cursor <- 0` (R126). -/
def State.clearBuffer (s : State) : State := { s with raw := Memory.cleared, cursor := 0 }

/-- Leaving Decoding, after the clear: `sampler_en <- 1; orch_state <- Idle` (R126). -/
def State.resumeIdle (s : State) : State := { s with samplerEn := true, orchState := .idle }

/-- A foreground operation returns `r` to its caller (30_encoding.md R63). -/
def State.returns (r : Result) (s : State) : State := { s with result := r }

end Sys2Proof.Machine
end

