-- ==== Sys2Proof/Machine/Accessors.lean ====
section
/-! DEFINITION. The accessors of the TagRecord and its clear: READ_ID, READ_RAW, CLEAR
(45_orchestrator_and_host_ops.md R130 to R132). -/

namespace Sys2Proof.Machine

/-- READ_ID: returns `tag_id`; the accessor does not clear (R130). -/
def execReadId (s : State) : Host.Outcome State Fault Refusal := .next (s.returns (.id s.tagId))

/-- READ_RAW: returns `tag_raw`; the accessor does not clear (R131). -/
def execReadRaw (s : State) : Host.Outcome State Fault Refusal := .next (s.returns (.raw s.tagRaw))

/-- CLEAR: `tag_id <- 0; tag_raw <- 0`, together; it returns nothing (R132, 30_encoding.md R63). -/
def execClear (s : State) : Host.Outcome State Fault Refusal :=
  .next ((s.setRecord 0#32 0#64).returns .nothing)

end Sys2Proof.Machine
end

