-- ==== Sys2Proof/Machine/Operands.lean ====
section
/-! DEFINITION. The forms of the values that flow through the units: the three interval classes of an edge event, the
raw pair code, and the fields of a payload frame. -/

namespace Sys2Proof.Machine

/-! ## Edge events -/

/-- The three classes of an interval (30_encoding.md R51). -/
inductive Interval where
  | short
  | long
  | noise
  deriving DecidableEq, Repr

/-- The class of an interval: both windows are open, the comparison is unsigned on the whole value (30_encoding.md R50,
R51, 40_edge_sampler.md R72). -/
def classify (ticks : Nat) : Interval :=
  if Config.shortLo < ticks ∧ ticks < Config.shortHi then .short
  else if Config.longLo < ticks ∧ ticks < Config.longHi then .long
  else .noise

/-- How many bits an interval appends (30_encoding.md R51). -/
def Interval.bits : Interval → Nat
  | .short => 1
  | .long => 2
  | .noise => 0

/-! ## The raw pair code -/

/-- The payload bit of a raw pair `(a, b)`: `(!a) & b` (30_encoding.md R52). -/
def pairBit (a b : Bit) : Bit := !a && b

/-- The raw pair that sends a payload bit, first bit first: 1 is `0,1` and 0 is `1,0` (30_encoding.md R53). -/
def bitPair (v : Bit) : List Bit := [!v, v]

/-! ## The payload frame -/

/-- `b(r) = 50 - 5*r`, the lowest bit of row `r`, `r = 0 .. 9` (30_encoding.md R56). -/
def rowBase (r : Nat) : Nat := 50 - 5 * r

/-- `D_r[c] = P[b(r)+1+c]`, the data bit of row `r` and column `c` (R56). -/
def dataBit (p : Payload) (r c : Nat) : Bit := p.getLsbD (rowBase r + 1 + c)

/-- `D_r = P[b(r)+4 : b(r)+1]`, the data nibble of row `r` (R56). -/
def dataNibble (p : Payload) (r : Nat) : BitVec 4 := p.extractLsb' (rowBase r + 1) 4

/-- `PR_r = P[b(r)]`, the parity bit of row `r` (R56). -/
def rowParityBit (p : Payload) (r : Nat) : Bit := p.getLsbD (rowBase r)

/-- `CP[c] = P[1+c]`, the parity bit of column `c` (R56). -/
def colParityBit (p : Payload) (c : Nat) : Bit := p.getLsbD (1 + c)

/-- The stop bit `P[0]` (R55). -/
def stopBit (p : Payload) : Bit := p.getLsbD 0

/-- The header field `P[63:55]` (R55). -/
def headerField (p : Payload) : BitVec 9 := p.extractLsb' 55 9

end Sys2Proof.Machine
end

