-- ==== Sys2Proof/Machine/Flags.lean ====
section
/-! DEFINITION. The block has no condition codes and no operation sets a flag (10_state.md R26). What stands here in the
place of flag computations are the one-bit verdicts that the units compute and do not store: the header match and the
checks of the Payload Validator. -/

namespace Sys2Proof.Machine

/-- `match(o)`: `raw[o+i] == HDR[i]` for every `i` in `0 .. 17` (41_header_locator.md R81). -/
def headerAt (raw : Memory) (o : Nat) : Bit :=
  (List.range Config.hdrLen).all fun i => raw.read (o + i) == Config.hdr.getLsbD i

/-- The exclusive or of the four data bits of row `r` (43_parity_validator.md R103). -/
def rowXor (p : Payload) (r : Nat) : Bit :=
  dataBit p r 3 ^^ dataBit p r 2 ^^ dataBit p r 1 ^^ dataBit p r 0

/-- Check 3 on one row: the exclusive or of the data bits equals the parity bit (R103). -/
def rowOk (p : Payload) (r : Nat) : Bit := rowXor p r == rowParityBit p r

/-- The exclusive or of bit `c` of the ten data rows (43_parity_validator.md R104). -/
def colXor (p : Payload) (c : Nat) : Bit :=
  (List.range Config.nRows).foldl (fun acc r => acc ^^ dataBit p r c) false

/-- Check 4 on one column (R104). -/
def colOk (p : Payload) (c : Nat) : Bit := colXor p c == colParityBit p c

end Sys2Proof.Machine
end

