-- ==== Sys2Proof/Machine/Extractor.lean ====
section
/-! DEFINITION. The Payload Extractor unit `payload_bit_extractor`: EXTRACT (42_payload_extractor.md). -/

namespace Sys2Proof.Machine

/-- What EXTRACT returns: a payload, or the outcome `OutOfRange` (R90, 60_exceptions.md R140). -/
inductive Extracted where
  | payload (p : Payload)
  | outOfRange
  deriving DecidableEq, Repr

/-- The 64 pairs from offset `o`, most significant payload bit first: `P[63-k]` is the bit of the pair
`(raw[o+2k], raw[o+2k+1])` (R92). -/
def payloadAt (raw : Memory) (o : Nat) : Payload :=
  BitVec.ofFnLE fun j : Fin 64 =>
    pairBit (raw.read (o + 2 * (63 - j.val))) (raw.read (o + 2 * (63 - j.val) + 1))

/-- `EXTRACT(o)`: out of range when `o + 128` passes the populated extent `cursor` (R91), else the payload at `o`
(R92). -/
def extract (raw : Memory) (cursor o : Nat) : Extracted :=
  if o + Config.rawPerFrame > cursor then .outOfRange else .payload (payloadAt raw o)

end Sys2Proof.Machine
end

