-- ==== Sys2Proof/Machine/Locator.lean ====
section
/-! DEFINITION. The Header Locator unit `header_pattern_locator`: LOCATE (41_header_locator.md). -/

namespace Sys2Proof.Machine

/-- What LOCATE returns: an offset, or the outcome `NotFound` (R80, 60_exceptions.md R140). -/
inductive Located where
  | found (o : Nat)
  | notFound
  deriving DecidableEq, Repr

/-- The scan of R80 over the `n` offsets from `o` up, with `count` matches passed so far. -/
def locateFrom (raw : Memory) (skip : Nat) : Nat → Nat → Nat → Located
  | 0, _, _ => .notFound
  | n + 1, o, count =>
    if headerAt raw o then
      if count = skip then .found o else locateFrom raw skip n (o + 1) (count + 1)
    else locateFrom raw skip n (o + 1) count

/-- How many offsets `o` have `o + 18 <= cap` (R84). -/
def scanCount (cap : Nat) : Nat := cap + 1 - Config.hdrLen

/-- `LOCATE(skip)` over a buffer of capacity `cap`: every offset `0 .. cap-18`, ascending, each once (R80, R82, R84). -/
def locate (raw : Memory) (cap skip : Nat) : Located := locateFrom raw skip (scanCount cap) 0 0

end Sys2Proof.Machine
end

