-- ==== Sys2Proof/Machine/Projector.lean ====
section
/-! DEFINITION. The Tag ID Projector unit `tag_id_projector`: PROJECT (44_tag_id_projector.md). -/

namespace Sys2Proof.Machine

/-- `PROJECT(P)`: the data nibbles of rows 2 to 9, the earliest row most significant (R110); total (R113). -/
def project (p : Payload) : TagId :=
  (List.range 8).foldl (fun id j => (id <<< 4) ||| (dataNibble p (2 + j)).setWidth 32) 0#32

end Sys2Proof.Machine
end

