-- ==== Sys2Proof/Machine/Validator.lean ====
section
/-! DEFINITION. The Payload Validator unit `parity_validator`: VALIDATE (43_parity_validator.md). -/

namespace Sys2Proof.Machine

/-- What VALIDATE returns: `Valid`, or the outcome `Invalid` (R100, 60_exceptions.md R140). -/
inductive Verdict where
  | valid
  | invalid
  deriving DecidableEq, Repr

/-- `VALIDATE(P)`: the four checks, in the order of R100; the first that fails decides (R105). -/
def validate (p : Payload) : Verdict :=
  if p = 0#64 then .invalid
  else if stopBit p then .invalid
  else if !(List.range Config.nRows).all (rowOk p) then .invalid
  else if !(List.range 4).all (colOk p) then .invalid
  else .valid

end Sys2Proof.Machine
end

