-- ==== Sys2Proof/Machine/Orchestrator.lean ====
section
/-! DEFINITION. The Decode Orchestrator: the operation POLL (45_orchestrator_and_host_ops.md). -/

namespace Sys2Proof.Machine

/-- One candidate (R124): the payload at `o` if it can be extracted and validates. `OutOfRange` is decided first
(60_exceptions.md R149). -/
def candidate (raw : Memory) (cursor o : Nat) : Option Payload :=
  match extract raw cursor o with
  | .outOfRange => none
  | .payload p =>
    match validate p with
    | .invalid => none
    | .valid => some p

/-- What the orchestrator's round for one ordinal comes to (R120, R124). -/
inductive Attempt where
  /-- LOCATE found no header with this ordinal: the candidates are exhausted. -/
  | exhausted
  /-- The candidate failed: `OutOfRange` or `Invalid`. -/
  | failed
  /-- The candidate's payload is valid. -/
  | success (p : Payload)
  deriving DecidableEq, Repr

/-- The round for the ordinal `skip` (R124). -/
def attempt (raw : Memory) (cap cursor skip : Nat) : Attempt :=
  match locate raw cap skip with
  | .notFound => .exhausted
  | .found o =>
    match candidate raw cursor o with
    | none => .failed
    | some p => .success p

/-- The loop of R120 and R123 over the rounds, `skip` going up by one per failed candidate, for at most `fuel` calls of
LOCATE. -/
def decodeLoop (round : Nat → Attempt) : Nat → Nat → Option Payload
  | 0, _ => none
  | fuel + 1, skip =>
    match round skip with
    | .exhausted => none
    | .success p => some p
    | .failed => decodeLoop round fuel (skip + 1)

/-- `floor((CAP-16)/2)`, the most header matches a buffer can hold (41_header_locator.md R86). -/
def maxMatches (cap : Nat) : Nat := (cap - 16) / 2

/-- The search of a decoding POLL: the loop from `skip = 0`, with the `M + 1` calls of LOCATE after which it has ended
(R123, R129). -/
def search (raw : Memory) (cap cursor : Nat) : Option Payload :=
  decodeLoop (attempt raw cap cursor) (maxMatches cap + 1) 0

/-- What the search leaves: the record on success (R125), the old record on exhaustion (R128). -/
def State.record (found : Option Payload) (s : State) : State :=
  match found with
  | some p => s.setRecord (project p) p
  | none => s

/-- A decoding POLL, from entering Decoding to the return of `ready` (R120, R122 to R127). -/
def pollDecode (s : State) : State :=
  let d := s.enterDecoding
  let found := search d.raw d.cfg.cap d.cursor
  ((d.record found).clearBuffer.resumeIdle).returns (.ready found.isSome)

/-- POLL (R120): below the threshold it returns 0 and changes no state element (R121), else it decodes. -/
def execPoll (s : State) : Host.Outcome State Fault Refusal :=
  if s.cursor < s.cfg.threshold then .next (s.returns (.ready false)) else .next (pollDecode s)

end Sys2Proof.Machine
end

