-- ==== Sys2Proof/Machine/Sampler.lean ====
section
/-! DEFINITION. The Edge Sampler unit `manchester_demod_sampler`: APPEND and the operation EDGE (40_edge_sampler.md). -/

namespace Sys2Proof.Machine

/-- `APPEND(v)`: store one bit at `cursor` and advance it, or nothing at capacity (R73). -/
def append (v : Bit) (s : State) : State :=
  if s.cursor < s.cfg.cap then { s with raw := s.raw.write s.cursor v, cursor := s.cursor + 1 } else s

/-- `repeat n times: APPEND(v)` (R70). -/
def appendTimes : Nat → Bit → State → State
  | 0, _, s => s
  | n + 1, v, s => appendTimes n v (append v s)

/-- EDGE (R70): nothing while the sampler is disabled (R71), else as many bits, each equal to the new level, as the
class of the interval says (R72). It returns nothing, and what the foreground was last returned stands. -/
def execEdge (level : Bit) (ticks : Nat) (s : State) : Host.Outcome State Fault Refusal :=
  if s.samplerEn then .next (appendTimes (classify ticks).bits level s) else .next s

end Sys2Proof.Machine
end

