-- ==== Sys2Proof/Machine/Dispatch.lean ====
section
/-! DEFINITION. One arm per operation of 30_encoding.md R60. -/

namespace Sys2Proof.Machine

/-- What an operation does to a state. -/
def exec (i : Instr) (s : State) : Host.Outcome State Fault Refusal :=
  match i with
  | .edge level ticks => Sys2Proof.Machine.execEdge level ticks s
  | .poll => Sys2Proof.Machine.execPoll s
  | .readId => Sys2Proof.Machine.execReadId s
  | .readRaw => Sys2Proof.Machine.execReadRaw s
  | .clear => Sys2Proof.Machine.execClear s

end Sys2Proof.Machine
end

