-- ==== Sys2Proof/Machine/Step.lean ====
section
/-! DEFINITION. One step: the oldest pending command word is taken and its operation runs whole (00_scope.md R8,
20_memory.md R40). -/

namespace Sys2Proof.Machine

/-- One step. With no operation issued the block does nothing (notes/assumptions/4.md); a reserved word is refused
(30_encoding.md R64). -/
def step (s : State) : Host.Outcome State Fault Refusal :=
  match s.pending with
  | [] => .next s
  | w :: rest =>
    match decode s.cfg.tickW w with
    | .error why => .refused (.reserved why)
    | .ok i => exec i { s with pending := rest }

/-- A command word issued to the block, behind those already pending: what the environment does (20_memory.md R40). -/
def State.issue (w : Nat) (s : State) : State := { s with pending := s.pending ++ [w] }

/-- `s` with the table's word `w` as the next command word. The word is numbered as spec/opcode_table.json numbers it,
that is for `TICK_W = 16`, the width of `State.reset` (notes/assumptions/12.md). -/
def State.withFetchWord (s : State) (nbits w : Nat) : State := { s with pending := w % 2 ^ nbits :: s.pending }

end Sys2Proof.Machine
end

