-- ==== Sys2Proof/Machine/SplitPoll.lean ====
section
/-! DEFINITION. The finer model of a decoding POLL that 20_memory.md R41 allows: "disable, one step per candidate,
record, clear, enable, with `orch_state == Decoding` and `sampler_en == 0` in between". The machine's `step` runs POLL
whole (00_scope.md R8, 92_eei_decisions.md D12); this machine is stated to come to the same. -/

namespace Sys2Proof.Machine

/-- What a POLL in progress does next; `skip` and the payload are the transient values of 10_state.md R18 and R19. -/
inductive PollPhase where
  /-- Try the candidate `LOCATE(skip)`. -/
  | candidate (skip : Nat)
  /-- Write the TagRecord. -/
  | record (p : Payload)
  /-- Clear the buffer; `ready` is the result to come. -/
  | clear (ready : Bit)
  /-- Re-enable the sampler, go Idle and return `ready`. -/
  | enable (ready : Bit)
  deriving DecidableEq, Repr

/-- The block with a POLL possibly in progress. -/
structure SplitState where
  core : State
  phase : Option PollPhase
  deriving DecidableEq, Repr

/-- POLL's first step: return 0 below the threshold (R121), else enter Decoding with `skip = 0` (R122, R123). -/
def splitEnter (s : State) : SplitState :=
  if s.cursor < s.cfg.threshold then { core := s.returns (.ready false), phase := none }
  else { core := s.enterDecoding, phase := some (.candidate 0) }

/-- POLL's next step. -/
def splitAdvance (x : SplitState) : SplitState :=
  match x.phase with
  | none => x
  | some (.candidate skip) =>
    match attempt x.core.raw x.core.cfg.cap x.core.cursor skip with
    | .exhausted => { x with phase := some (.clear false) }
    | .failed => { x with phase := some (.candidate (skip + 1)) }
    | .success p => { x with phase := some (.record p) }
  | some (.record p) => { core := x.core.setRecord (project p) p, phase := some (.clear true) }
  | some (.clear ready) => { core := x.core.clearBuffer, phase := some (.enable ready) }
  | some (.enable ready) => { core := x.core.resumeIdle.returns (.ready ready), phase := none }

/-- An operation's outcome put back into the split machine, the phase unchanged. -/
def SplitState.lift (phase : Option PollPhase) :
    Host.Outcome State Fault Refusal → Host.Outcome SplitState Fault Refusal
  | .next s => .next { core := s, phase := phase }
  | .fault r => .fault r
  | .refused r => .refused r

/-- A foreground operation outside a POLL: a POLL begins, any other runs whole. -/
def splitForeground (i : Instr) (x : SplitState) : Host.Outcome SplitState Fault Refusal :=
  if i = .poll then .next (splitEnter x.core) else SplitState.lift x.phase (exec i x.core)

/-- An operation issued to the split machine: EDGE runs at any time (with no effect while the sampler is disabled,
20_memory.md R42); a foreground operation has no meaning while a POLL is in progress (R41, U13). -/
def splitIssue (i : Instr) (x : SplitState) : Host.Outcome SplitState Fault Refusal :=
  match i.agent with
  | .edgeHandler => SplitState.lift x.phase (exec i x.core)
  | .foreground =>
    if x.core.orchState = .decoding then .refused .foregroundBusy else splitForeground i x

/-- What can happen while a POLL is in progress. -/
inductive SplitEvent where
  /-- POLL goes on by one step. -/
  | advance
  /-- An edge notification arrives. -/
  | edge (level : Bit) (ticks : Nat)
  deriving DecidableEq, Repr

/-- One event. -/
def splitEvent (e : SplitEvent) (x : SplitState) : SplitState :=
  match e with
  | .advance => splitAdvance x
  | .edge level ticks =>
    match splitIssue (.edge level ticks) x with
    | .next y => y
    | _ => x

/-- A sequence of events, in order. -/
def splitRun (es : List SplitEvent) (x : SplitState) : SplitState :=
  es.foldl (fun y e => splitEvent e y) x

/-- `n` steps of POLL with no edge between them. -/
def splitAdvances : Nat → SplitState → SplitState
  | 0, x => x
  | n + 1, x => splitAdvances n (splitAdvance x)

end Sys2Proof.Machine
end

