-- ==== Sys2Proof/Machine/TagSide.lean ====
section
/-! DEFINITION. The tag's side of the protocol, "given for test construction only" (44_tag_id_projector.md R114): the
frame of an identifier, its raw bits, and the edges that present raw bits to the block. Nothing here is an operation of
the block; statements use it to speak about frames. -/

namespace Sys2Proof.Machine

/-- Data nibble `D_r` of the frame with version nibbles `v0`, `v1` and identifier `id` (R114). -/
def buildNibble (v0 v1 : BitVec 4) (id : TagId) (r : Nat) : BitVec 4 :=
  match r with
  | 0 => v0
  | 1 => v1
  | j + 2 => id.extractLsb' (28 - 4 * j) 4

/-- The even-parity bit of a nibble (R114, `PR_r`). -/
def nibbleParity (n : BitVec 4) : Bit := n.getLsbD 3 ^^ n.getLsbD 2 ^^ n.getLsbD 1 ^^ n.getLsbD 0

/-- Row `r` of the frame: its nibble, then its parity bit. -/
def buildRow (v0 v1 : BitVec 4) (id : TagId) (r : Nat) : BitVec 5 :=
  buildNibble v0 v1 id r ++ BitVec.ofBool (nibbleParity (buildNibble v0 v1 id r))

/-- The column parity: the exclusive or of the ten data nibbles, column by column (R114, `CP`). -/
def buildColumns (v0 v1 : BitVec 4) (id : TagId) : BitVec 4 :=
  (List.range Config.nRows).foldl (fun acc r => acc ^^^ buildNibble v0 v1 id r) 0#4

/-- The header and the first `n` rows of the frame, as the low bits of a word. -/
def buildRows (v0 v1 : BitVec 4) (id : TagId) (n : Nat) : Payload :=
  (List.range n).foldl (fun acc r => (acc <<< 5) ||| (buildRow v0 v1 id r).setWidth 64) 0b111111111#64

/-- `BUILD(v0, v1, id)`: nine header ones, ten rows, the column parity, the stop bit 0 (R114, 30_encoding.md R55). -/
def build (v0 v1 : BitVec 4) (id : TagId) : Payload :=
  ((buildRows v0 v1 id Config.nRows <<< 4) ||| (buildColumns v0 v1 id).setWidth 64) <<< 1

/-- The 128 raw bits of a payload in time order: frame bit `t` is `P[63-t]` (30_encoding.md R53, R57). -/
def rawFrame (p : Payload) : List Bit := (List.range 64).flatMap fun t => bitPair (p.getLsbD (63 - t))

/-- Pseudo-operation `S level` (30_encoding.md R66). -/
def shortEdge (level : Bit) : Instr := .edge level 1400

/-- Pseudo-operation `L level` (R66). -/
def longEdge (level : Bit) : Instr := .edge level 3000

/-- Pseudo-operation `N level` (R66). -/
def noiseEdge (level : Bit) : Instr := .edge level 500

/-- The shorthand RUNS (R66): the maximal runs of equal bits, a run of one as `S`, a run of two as `L`; a longer run is
not expressible. -/
def runs : List Bit → Option (List Instr)
  | [] => some []
  | [a] => some [shortEdge a]
  | a :: b :: rest =>
    if a = b then
      if rest.head? = some a then none else (runs rest).map (longEdge a :: ·)
    else (runs (b :: rest)).map (shortEdge a :: ·)

end Sys2Proof.Machine
end

