-- ==== Sys2Proof/Safety.lean ====
section
/-! DEFINITION. What counts as a safe state and a safe run, in the terms the statements use: the invariants of
10_state.md R20 to R23, and what the block and its environment can do together. -/

namespace Sys2Proof.Machine

/-- 10_state.md R21: bits never appended since the last clear are zero. -/
def Clean (raw : Memory) (cursor : Nat) : Prop := ∀ i, cursor ≤ i → raw.read i = false

/-- 10_state.md R22: the record is empty, or a valid payload with a header of ones; the identifier is its projection. -/
def RecordOk (id : TagId) (payload : Payload) : Prop :=
  id = project payload ∧
    (payload = 0#64 ∨ (validate payload = .valid ∧ headerField payload = 0b111111111#9))

/-- The invariants that hold after reset and after every operation (10_state.md section 3). -/
structure Inv (s : State) : Prop where
  /-- The constraints of 00_scope.md R5 on the parameters. -/
  params : s.cfg.wf
  /-- The buffer is in its canonical form (the model's own). -/
  canonical : s.raw.wf
  /-- R20. -/
  bounded : s.cursor ≤ s.cfg.cap
  /-- R21. -/
  clean : Clean s.raw s.cursor
  /-- R22. -/
  record : RecordOk s.tagId s.tagRaw
  /-- R23. -/
  sampling : s.samplerEn = true
  /-- R23. -/
  idle : s.orchState = .idle

/-- What the block and its environment can do together from power-up reset with the parameters `c`: the environment
issues any command word at any time, the block steps. -/
inductive Reachable (c : Config) : State → Prop where
  | reset : Reachable c (State.resetWith c)
  | issue (s : State) (w : Nat) : Reachable c s → Reachable c (s.issue w)
  | step (s t : State) : Reachable c s → step s = .next t → Reachable c t

/-- A sequence of operations run one after another: a trace in the sense of 30_encoding.md R66. -/
def runOps : List Instr → State → Host.Outcome State Fault Refusal
  | [], s => .next s
  | i :: is, s =>
    match exec i s with
    | .next t => runOps is t
    | .fault r => .fault r
    | .refused r => .refused r

/-- The candidate at `o` succeeds: a header, 128 populated bits, a valid payload (R129, the conditions on `o*`). -/
def Accepts (raw : Memory) (cursor o : Nat) : Prop :=
  headerAt raw o = true ∧ o + Config.rawPerFrame ≤ cursor ∧ validate (payloadAt raw o) = .valid

/-- `o` is the lowest offset whose candidate succeeds: `o*` of R129. -/
def FirstAccepted (raw : Memory) (cursor o : Nat) : Prop :=
  Accepts raw cursor o ∧ ∀ o', o' < o → ¬ Accepts raw cursor o'

/-- How many offsets below `o` hold a header (41_header_locator.md R82). -/
def matchesBelow (raw : Memory) (o : Nat) : Nat := (List.range o).countP (headerAt raw)

end Sys2Proof.Machine
end

