-- ==== Sys2Proof/Certificates/Slice0/Obligations.lean ====
section
/-! DEFINITION. The statements about the model, in the order of spec/. A docstring names the rule or the section that a
statement formalises, and says where it rests on a decision of the spec (92_eei_decisions.md) or on a choice of the
model (notes/assumptions). Where a statement gives a next state as `{ s with … }`, that the model's own fields `cfg`,
`result` and `pending` are as given there is the model's choice (notes/assumptions/1.md, 5.md, 4.md) and no rule's. -/

open Sys2Proof Sys2Proof.Machine

/-! ## Command words (30_encoding.md section 6; the word is the spec's own construction, D1) -/

/-- Every operation whose operands fit their fields is what its command word decodes to, for every tick width. -/
def Obligations.DecodeOfEncodeIsTheOperation : Prop :=
  ∀ (tickW : Nat) (i : Instr), i.wf tickW = true → decode tickW (encode tickW i) = .ok i

/-- A word that decodes is the command word of what it decodes to, and of nothing else. -/
def Obligations.DecodedWordIsItsOwnEncoding : Prop :=
  ∀ (tickW w : Nat) (i : Instr), decode tickW w = .ok i → i.wf tickW = true ∧ encode tickW i = w

/-- At `TICK_W = 16` a word decodes to a row's operation exactly when it agrees with the row's match value under the
row's mask, and EDGE's operands are bit 16 and bits 15 to 0 (30_encoding.md section 6, the two tables). -/
def Obligations.TableRowsMatchExactlyTheirOperations : Prop :=
  (∀ (w : BitVec 20) (row : OpcodeRow), row ∈ opcodeTable →
    (w &&& row.mask = row.matchValue ↔ ∃ i, decode 16 w.toNat = .ok i ∧ i.mnemonic = row.mnemonic)) ∧
  ∀ (w : BitVec 20) (level : Bit) (ticks : Nat), decode 16 w.toNat = .ok (.edge level ticks) →
    level = w.getLsbD 16 ∧ ticks = (w.extractLsb' 0 16).toNat

/-- A step refuses exactly the reserved words, `op` 101, 110 and 111 and an operation without operands whose operand bits
are not zero (the spec's decision D16), and the numbers too wide to be a command word (`op` field and above 8 or more:
the model's choice, notes/assumptions/9.md). -/
def Obligations.StepRefusesExactlyTheReservedWords : Prop :=
  ∀ (s : State) (w : Nat) (rest : List Nat), s.pending = w :: rest →
    let op := w / 2 ^ (s.cfg.tickW + 1)
    let operands := w % 2 ^ (s.cfg.tickW + 1)
    ((∃ why, step s = .refused (.reserved why)) ↔ 5 ≤ op ∨ (1 ≤ op ∧ operands ≠ 0))

/-- A few words written out from the table decode to their operations. -/
def Obligations.WordsOfTheTableDecode : Prop :=
  decode 16 0x00578 = .ok (.edge false 1400) ∧ decode 16 0x10BB8 = .ok (.edge true 3000) ∧
  decode 16 0x1FFFF = .ok (.edge true 65535) ∧ decode 16 0x20000 = .ok .poll ∧
  decode 16 0x40000 = .ok .readId ∧ decode 16 0x60000 = .ok .readRaw ∧ decode 16 0x80000 = .ok .clear

/-! ## The step -/

/-- A step takes the oldest command word and runs the operation it decodes to, whole; with nothing issued it leaves the
state alone (the list of pending words and the idle step are the model's, notes/assumptions/4.md). -/
def Obligations.StepRunsTheDecodedOperation : Prop :=
  (∀ (s : State) (w : Nat) (rest : List Nat) (i : Instr),
    s.pending = w :: rest → decode s.cfg.tickW w = .ok i → step s = exec i { s with pending := rest }) ∧
  ∀ s : State, s.pending = [] → step s = .next s

/-- Every operation returns on every operand and every state, no step faults, and a step refuses exactly the words outside
the operation set (60_exceptions.md section 1). That reserved words are refused is the spec's decision D16; that a number
too wide to be a command word is refused (notes/assumptions/9.md) and that a step with nothing issued is idle and refuses
nothing (notes/assumptions/4.md) are the model's choices. -/
def Obligations.EveryOperationReturns : Prop :=
  (∀ (i : Instr) (s : State), ∃ t, exec i s = .next t) ∧
  (∀ (s : State) (f : Fault), step s ≠ .fault f) ∧
  ∀ (s : State) (r : Refusal), step s = .refused r ↔
    ∃ w rest why, s.pending = w :: rest ∧ decode s.cfg.tickW w = .error why ∧ r = .reserved why

/-! ## The Edge Sampler (40_edge_sampler.md) -/

/-- R73: APPEND stores at the old `cursor` and advances it by one, and changes nothing at capacity. -/
def Obligations.AppendWritesAtTheCursorOrNothing : Prop :=
  ∀ (v : Bit) (s : State), s.raw.wf →
    (s.cursor < s.cfg.cap →
      (append v s).cursor = s.cursor + 1 ∧
      (∀ a, (append v s).raw.read a = if a = s.cursor then v else s.raw.read a) ∧
      append v s = { s with raw := (append v s).raw, cursor := (append v s).cursor }) ∧
    (s.cfg.cap ≤ s.cursor → append v s = s)

/-- EDGE appends the new level once in the short window, twice in the long one, not at all for noise or while the
sampler is disabled, as far as there is room; every other bit and every other state element stays. The open windows are
the spec's decision D4, the disabled case D20, the partial append D17. -/
def Obligations.EdgeAppendsWhatTheIntervalSays : Prop :=
  ∀ (s : State) (level : Bit) (ticks : Nat), s.raw.wf →
    let want := if 900 < ticks ∧ ticks < 1900 then 1 else if 2000 < ticks ∧ ticks < 4000 then 2 else 0
    let n := if s.samplerEn then min want (s.cfg.cap - s.cursor) else 0
    ∃ raw', exec (.edge level ticks) s = .next { s with raw := raw', cursor := s.cursor + n } ∧
      ∀ a, raw'.read a = if s.cursor ≤ a ∧ a < s.cursor + n then level else s.raw.read a

/-- EDGE always completes, and leaves `orch_state`, `sampler_en`, `tag_id` and `tag_raw` alone (20_memory.md section 6).
That it leaves the model's own fields alone too is the model's choice: the value last returned (notes/assumptions/5.md),
the parameters (1.md), the pending words (4.md). -/
def Obligations.EdgeNeverTouchesTheOrchestratorOrTheRecord : Prop :=
  ∀ (s : State) (level : Bit) (ticks : Nat), ∃ t, exec (.edge level ticks) s = .next t ∧
    t.orchState = s.orchState ∧ t.samplerEn = s.samplerEn ∧ t.tagId = s.tagId ∧ t.tagRaw = s.tagRaw ∧
    t.result = s.result ∧ t.cfg = s.cfg ∧ t.pending = s.pending

/-- R75: once the buffer is full every EDGE changes nothing, and it stays full, with the same bits, until a POLL, which
clears it. -/
def Obligations.FullBufferIgnoresEdgesUntilPoll : Prop :=
  ∀ s : State, s.cursor = s.cfg.cap →
    (∀ (level : Bit) (ticks : Nat), exec (.edge level ticks) s = .next s) ∧
    (∀ (i : Instr) (t : State), i ≠ .poll → exec i s = .next t → t.cursor = t.cfg.cap ∧ t.raw = s.raw) ∧
    ∃ t, exec .poll s = .next t ∧ t.cursor = 0 ∧ t.raw = Memory.cleared

/-- An interval in neither window changes nothing at all: the bounds 900, 1900, 2000, 4000 and the gap between the
windows are noise (the open intervals are the spec's decision D4). -/
def Obligations.NoiseIntervalChangesNothing : Prop :=
  ∀ (s : State) (level : Bit) (ticks : Nat),
    ticks ≤ 900 ∨ (1900 ≤ ticks ∧ ticks ≤ 2000) ∨ 4000 ≤ ticks → exec (.edge level ticks) s = .next s

/-! ## The Header Locator (41_header_locator.md) -/

/-- A header is the 18 raw bits `0,1` nine times in ascending order; as a word whose bit `i` is `raw[o+i]` it is
0x2AAAA (the mapping of the constant onto the buffer is the spec's decision D6). -/
def Obligations.HeaderIsNinePairsZeroOne : Prop :=
  ∀ (raw : Memory) (o : Nat),
    (headerAt raw o = true ↔ ∀ k, k < 9 → raw.read (o + 2 * k) = false ∧ raw.read (o + 2 * k + 1) = true) ∧
    (headerAt raw o = true ↔ (BitVec.ofFnLE fun i : Fin 18 => raw.read (o + i.val)) = 0x2AAAA#18)

/-- The counting of 41_header_locator.md: `LOCATE(k)` returns the k-th header, counted from 0 in ascending offset order, each offset once; with `k`
beyond the last occurrence it returns `NotFound`. Which offsets are tested is the spec's decision D7, how a header lies
in the buffer D6. -/
def Obligations.LocateReturnsTheKthHeader : Prop :=
  ∀ (raw : Memory) (cap k : Nat),
    (∀ o, locate raw cap k = .found o ↔ o + 18 ≤ cap ∧ headerAt raw o = true ∧ matchesBelow raw o = k) ∧
    (matchesBelow raw (cap + 1 - 18) ≤ k → locate raw cap k = .notFound)

/-- `NotFound` exactly when fewer than `skip + 1` offsets match; an all-zero buffer and a buffer of ones hold no header
(41_header_locator.md; which offsets are tested is the spec's decision D7). -/
def Obligations.NotFoundExactlyWhenTooFewHeaders : Prop :=
  ∀ (raw : Memory) (cap : Nat),
    (∀ skip, locate raw cap skip = .notFound ↔ matchesBelow raw (cap + 1 - 18) < skip + 1) ∧
    ((∀ a, a < cap → raw.read a = false) → locate raw cap 0 = .notFound) ∧
    ((∀ a, a < cap → raw.read a = true) → locate raw cap 0 = .notFound)

/-- Two headers never sit at adjacent offsets, ten pairs `0,1` hold two of them, and a buffer holds at most
`floor((CAP-16)/2)` (41_header_locator.md, the section on overlapping matches, derived there). -/
def Obligations.HeadersOverlapButNeverTouch : Prop :=
  ∀ raw : Memory,
    (∀ o, headerAt raw o = true → headerAt raw (o + 1) = false) ∧
    (∀ o, (∀ k, k < 10 → raw.read (o + 2 * k) = false ∧ raw.read (o + 2 * k + 1) = true) →
      headerAt raw o = true ∧ headerAt raw (o + 2) = true) ∧
    ∀ cap, matchesBelow raw (cap + 1 - 18) ≤ (cap - 16) / 2

/-- With the bits above `cursor` zero, every header lies inside the populated extent, so a scan of the extent finds what
a scan of the buffer finds (41_header_locator.md, the section on the scan range, derived there; D7). -/
def Obligations.HeadersLieInThePopulatedExtent : Prop :=
  ∀ (raw : Memory) (cap cursor : Nat), Clean raw cursor → cursor ≤ cap →
    (∀ o, headerAt raw o = true → o + 18 ≤ cursor) ∧ ∀ skip, locate raw cursor skip = locate raw cap skip

/-- A decode does not depend on where between `CAP - 128` and `CAP - 18` the scan stops (41_header_locator.md, the
section on the scan range, derived there; D7). `search raw c` scans the offsets up to `c - 18`. -/
def Obligations.DecodeDoesNotDependOnTheScanEnd : Prop :=
  ∀ (raw : Memory) (cap cursor c : Nat), 138 ≤ cap → cursor ≤ cap → cap - 110 ≤ c → c ≤ cap →
    search raw c cursor = search raw cap cursor

/-- No access falls outside `0 .. CAP-1`: LOCATE depends on bits below the capacity only, EXTRACT on bits below `cursor`
only, and an EDGE changes no bit at or above the capacity (20_memory.md section 1). -/
def Obligations.AccessesStayInsideTheBuffer : Prop :=
  (∀ (raw raw' : Memory) (cap skip : Nat), (∀ a, a < cap → raw.read a = raw'.read a) →
    locate raw cap skip = locate raw' cap skip) ∧
  (∀ (raw raw' : Memory) (cursor o : Nat), (∀ a, a < cursor → raw.read a = raw'.read a) →
    extract raw cursor o = extract raw' cursor o) ∧
  ∀ (s t : State) (level : Bit) (ticks a : Nat), s.raw.wf → exec (.edge level ticks) s = .next t →
    s.cfg.cap ≤ a → t.raw.read a = s.raw.read a

/-! ## The Payload Extractor (42_payload_extractor.md) -/

/-- EXTRACT is out of range exactly when its 128 bits pass the populated extent, and else returns a payload (the extent
is `cursor` by the spec's decision D19). -/
def Obligations.ExtractFailsExactlyPastTheExtent : Prop :=
  ∀ (raw : Memory) (cursor o : Nat),
    (extract raw cursor o = .outOfRange ↔ o + 128 > cursor) ∧
    (o + 128 ≤ cursor → ∃ p, extract raw cursor o = .payload p)

/-- R92: payload bit `63-k` is 1 exactly when the k-th pair from the offset is `(0,1)`. -/
def Obligations.ExtractDecodesPairsMostSignificantFirst : Prop :=
  ∀ (raw : Memory) (cursor o : Nat), o + 128 ≤ cursor →
    ∃ p, extract raw cursor o = .payload p ∧
      ∀ k, k < 64 →
        (p.getLsbD (63 - k) = true ↔ raw.read (o + 2 * k) = false ∧ raw.read (o + 2 * k + 1) = true)

/-- At a header the payload's header field is nine ones, so the payload is not zero (42_payload_extractor.md, derived
there). -/
def Obligations.HeaderExtractsToNineOnes : Prop :=
  ∀ (raw : Memory) (o : Nat), headerAt raw o = true →
    headerField (payloadAt raw o) = 0b111111111#9 ∧ payloadAt raw o ≠ 0#64

/-! ## The Payload Validator (43_parity_validator.md) -/

/-- R101, R102, R103: the zero word is invalid though it passes the other three checks; a word with the stop bit set, and
a word with a row whose data bits do not add up to its parity bit, are invalid. -/
def Obligations.ZeroStopAndRowChecksReject : Prop :=
  (validate 0#64 = .invalid ∧ stopBit 0#64 = false ∧ (∀ r, r < 10 → rowOk 0#64 r = true) ∧
    ∀ c, c < 4 → colOk 0#64 c = true) ∧
  (∀ p : Payload, p.getLsbD 0 = true → validate p = .invalid) ∧
  ∀ (p : Payload) (r : Nat), r < 10 →
    (p.getLsbD (50 - 5 * r + 4) ^^ p.getLsbD (50 - 5 * r + 3) ^^ p.getLsbD (50 - 5 * r + 2) ^^
      p.getLsbD (50 - 5 * r + 1)) ≠ p.getLsbD (50 - 5 * r) → validate p = .invalid

/-- A payload is valid exactly when all four checks pass, the columns written out (which data bit belongs to which
column parity bit is the spec's decision D18; the order of the checks is unobservable, D25). -/
def Obligations.ValidIsExactlyTheFourChecks : Prop :=
  ∀ p : Payload, validate p = .valid ↔
    p ≠ 0#64 ∧ p.getLsbD 0 = false ∧
    (∀ r, r < 10 → (p.getLsbD (50 - 5 * r + 4) ^^ p.getLsbD (50 - 5 * r + 3) ^^ p.getLsbD (50 - 5 * r + 2) ^^
      p.getLsbD (50 - 5 * r + 1)) = p.getLsbD (50 - 5 * r)) ∧
    ∀ c, c < 4 → (p.getLsbD (51 + c) ^^ p.getLsbD (46 + c) ^^ p.getLsbD (41 + c) ^^ p.getLsbD (36 + c) ^^
      p.getLsbD (31 + c) ^^ p.getLsbD (26 + c) ^^ p.getLsbD (21 + c) ^^ p.getLsbD (16 + c) ^^
      p.getLsbD (11 + c) ^^ p.getLsbD (6 + c)) = p.getLsbD (1 + c)

/-- Flipping any one or any two of the bits 54 to 0 of a valid payload makes it invalid (43_parity_validator.md, the
properties (b) and (c), derived there). -/
def Obligations.OneAndTwoBitErrorsAreDetected : Prop :=
  ∀ p : Payload, validate p = .valid →
    (∀ i, i < 55 → validate (p ^^^ (1#64 <<< i)) = .invalid) ∧
    ∀ i j, i < j → j < 55 → validate (p ^^^ (1#64 <<< i) ^^^ (1#64 <<< j)) = .invalid

/-- Flipping a data bit together with its row parity bit and its column parity bit keeps a payload with a header of ones
valid: the validator does not detect it (43_parity_validator.md, the property (c), derived there). -/
def Obligations.DataRowColumnTripleErrorIsNotDetected : Prop :=
  ∀ (p : Payload) (r c : Nat), validate p = .valid → headerField p = 0b111111111#9 → r < 10 → c < 4 →
    validate (p ^^^ (1#64 <<< (51 - 5 * r + c)) ^^^ (1#64 <<< (50 - 5 * r)) ^^^ (1#64 <<< (1 + c))) = .valid

/-- The header bits enter the non-zero check only (43_parity_validator.md, the section on what is not checked, derived
there; D25). -/
def Obligations.HeaderBitsAreNotValidated : Prop :=
  (∀ p q : Payload, (∀ i, i < 55 → p.getLsbD i = q.getLsbD i) → p ≠ 0#64 → q ≠ 0#64 →
    validate p = validate q) ∧
  validate 0x8000000000000000#64 = .valid

/-- The header and the 40 data bits determine a valid payload, and every choice of them that is not all zero belongs to
one (43_parity_validator.md, the property (d), derived there). -/
def Obligations.DataDetermineTheValidPayload : Prop :=
  (∀ p q : Payload, validate p = .valid → validate q = .valid → headerField p = headerField q →
    (∀ r, r < 10 → dataNibble p r = dataNibble q r) → p = q) ∧
  ∀ (h : BitVec 9) (d : Nat → BitVec 4), h ≠ 0#9 ∨ (∃ r, r < 10 ∧ d r ≠ 0#4) →
    ∃ p, validate p = .valid ∧ headerField p = h ∧ ∀ r, r < 10 → dataNibble p r = d r

/-! ## The Tag ID Projector (44_tag_id_projector.md) -/

/-- Nibble `7-j` of the identifier is the data nibble of row `2+j`, its bit order kept (44_tag_id_projector.md; the places
of the data bits and their order in the nibble are the spec's decision D18). -/
def Obligations.ProjectPacksTheNibblesOfRowsTwoToNine : Prop :=
  ∀ (p : Payload) (j : Nat), j < 8 →
    (project p).extractLsb' (28 - 4 * j) 4 = p.extractLsb' (50 - 5 * (2 + j) + 1) 4

/-- Two payloads have the same identifier exactly when they agree on the 32 bits of those eight nibbles
(44_tag_id_projector.md; the places of the data bits are the spec's decision D18). -/
def Obligations.ProjectIsInjectiveOnTheNibbles : Prop :=
  ∀ p q : Payload, project p = project q ↔
    ∀ r c, 2 ≤ r → r < 10 → c < 4 → p.getLsbD (51 - 5 * r + c) = q.getLsbD (51 - 5 * r + c)

/-- The frame built for an identifier validates and projects back to it, with nine header ones and its two version
nibbles in rows 0 and 1 (44_tag_id_projector.md, the round trip, derived there). -/
def Obligations.BuiltFrameValidatesAndProjectsBack : Prop :=
  ∀ (v0 v1 : BitVec 4) (id : TagId),
    validate (build v0 v1 id) = .valid ∧ project (build v0 v1 id) = id ∧
    headerField (build v0 v1 id) = 0b111111111#9 ∧
    dataNibble (build v0 v1 id) 0 = v0 ∧ dataNibble (build v0 v1 id) 1 = v1

/-! ## The Decode Orchestrator (45_orchestrator_and_host_ops.md) -/

/-- Below the threshold POLL returns 0 and changes no state element (`cursor < CAP - 10` is the spec's decision D5). -/
def Obligations.PollBelowThresholdOnlyReturnsZero : Prop :=
  ∀ s : State, s.cursor < s.cfg.cap - 10 → exec .poll s = .next { s with result := .ready false }

/-- R123: the search tries the ordinals 0, 1, 2, … and ends at the first whose candidate succeeds or at `NotFound`. -/
def Obligations.SearchFollowsTheSkipLoop : Prop :=
  ∀ (raw : Memory) (cap cursor : Nat),
    (∀ p, search raw cap cursor = some p ↔
      ∃ k, (∃ o, locate raw cap k = .found o ∧ extract raw cursor o = .payload p ∧ validate p = .valid) ∧
        ∀ k', k' < k → ∃ o, locate raw cap k' = .found o ∧
          (extract raw cursor o = .outOfRange ∨ ∃ q, extract raw cursor o = .payload q ∧ validate q = .invalid)) ∧
    (search raw cap cursor = none ↔
      ∀ k o, locate raw cap k = .found o →
        extract raw cursor o = .outOfRange ∨ ∃ q, extract raw cursor o = .payload q ∧ validate q = .invalid)

/-- A decoding POLL records the payload of the lowest offset whose candidate succeeds, clears the buffer, re-enables the
sampler and returns 1 (the closed form of section POLL, derived there; threshold D5, one clear per POLL D26). -/
def Obligations.PollRecordsTheFirstValidCandidate : Prop :=
  ∀ (s : State) (o : Nat), s.cursor ≤ s.cfg.cap → s.cfg.cap - 10 ≤ s.cursor → FirstAccepted s.raw s.cursor o →
    exec .poll s = .next { s with
      raw := Memory.cleared, cursor := 0, samplerEn := true, orchState := .idle,
      tagRaw := payloadAt s.raw o, tagId := project (payloadAt s.raw o), result := .ready true }

/-- A decoding POLL that finds no valid candidate clears the buffer, keeps the record and returns 0 (section POLL;
threshold D5, one clear per POLL D26, result D8). -/
def Obligations.ExhaustedPollKeepsTheRecord : Prop :=
  ∀ s : State, s.cursor ≤ s.cfg.cap → s.cfg.cap - 10 ≤ s.cursor → (∀ o, ¬ Accepts s.raw s.cursor o) →
    exec .poll s = .next { s with
      raw := Memory.cleared, cursor := 0, samplerEn := true, orchState := .idle, result := .ready false }

/-- POLL's bit says that this POLL decoded a tag, not that a record is present (the spec's decision D8). -/
def Obligations.ReadyMeansThisPollDecoded : Prop :=
  ∀ s : State, s.cursor ≤ s.cfg.cap → ∃ t b, exec .poll s = .next t ∧ t.result = .ready b ∧
    (b = true ↔ s.cfg.cap - 10 ≤ s.cursor ∧ ∃ o, Accepts s.raw s.cursor o)

/-- A POLL split into steps comes to the atomic POLL, after at most one step per header and three more
(20_memory.md section 5, derived there; D12). -/
def Obligations.SplitPollComesToTheAtomicPoll : Prop :=
  ∀ s t : State, exec .poll s = .next t →
    ∃ n, n ≤ maxMatches s.cfg.cap + 3 ∧ splitAdvances n (splitEnter s) = { core := t, phase := none }

/-- While a split POLL is in progress the sampler is off, the state is Decoding, foreground operations are refused, and
edges leave no trace: the state is the one that POLL's steps alone give (20_memory.md section 5, D12, D20). -/
def Obligations.EdgesInsideASplitPollLeaveNoTrace : Prop :=
  ∀ (s : State) (es : List SplitEvent), (splitRun es (splitEnter s)).phase ≠ none →
    splitRun es (splitEnter s) = splitAdvances (es.count .advance) (splitEnter s) ∧
    (splitRun es (splitEnter s)).core.samplerEn = false ∧
    (splitRun es (splitEnter s)).core.orchState = .decoding ∧
    ∀ i : Instr, i.agent = .foreground → splitIssue i (splitRun es (splitEnter s)) = .refused .foregroundBusy

/-! ## The accessors and CLEAR (45_orchestrator_and_host_ops.md) -/

/-- READ_ID returns `tag_id` and changes no state element; it returns 0 after reset and after CLEAR, 0 also for a
stored tag whose identifier nibbles are zero, and the last decode's identifier after a POLL that decoded nothing (the
reset value is the spec's decision D11, what CLEAR touches D21, no clear on read D9; where the result is kept is the
model's choice, notes/assumptions/5.md). -/
def Obligations.ReadIdReturnsTheStoredIdentifier : Prop :=
  (∀ s : State, exec .readId s = .next { s with result := .id s.tagId }) ∧
  (∀ c : Config, exec .readId (State.resetWith c) = .next { State.resetWith c with result := .id 0#32 }) ∧
  (∀ s t : State, exec .clear s = .next t → exec .readId t = .next { t with result := .id 0#32 }) ∧
  (∀ s : State, RecordOk s.tagId s.tagRaw → (∀ r, 2 ≤ r → r < 10 → dataNibble s.tagRaw r = 0#4) →
    exec .readId s = .next { s with result := .id 0#32 }) ∧
  ∀ s t : State, exec .poll s = .next t → t.result = .ready false →
    exec .readId t = .next { t with result := .id s.tagId }

/-- READ_RAW returns `tag_raw` and changes no state element; in a state that keeps the record's invariant, a non-zero
result has bits 63 to 55 set and bit 0 clear (45_orchestrator_and_host_ops.md section READ_RAW; no clear on read is the
spec's decision D9, where the result is kept is the model's choice, notes/assumptions/5.md). -/
def Obligations.ReadRawReturnsTheStoredPayload : Prop :=
  (∀ s : State, exec .readRaw s = .next { s with result := .raw s.tagRaw }) ∧
  ∀ s : State, RecordOk s.tagId s.tagRaw → s.tagRaw ≠ 0#64 →
    headerField s.tagRaw = 0b111111111#9 ∧ s.tagRaw.getLsbD 0 = false ∧ validate s.tagRaw = .valid

/-- CLEAR empties both fields of the record and nothing else, and a second CLEAR changes nothing more (that capture goes
on undisturbed is the spec's decision D21). -/
def Obligations.ClearEmptiesOnlyTheRecord : Prop :=
  (∀ s : State, exec .clear s = .next { s with tagId := 0#32, tagRaw := 0#64, result := .nothing }) ∧
  ∀ s t : State, exec .clear s = .next t → exec .clear t = .next t

/-! ## Whole-machine rules -/

/-- Which operations write which elements (10_state.md section 7, the write columns): the buffer only EDGE and POLL, the
sampler enable and the orchestrator state only POLL, the record only CLEAR and a POLL that decoded a tag. That none
writes the parameters (notes/assumptions/1.md) and the pending words (4.md), and where POLL's bit is kept (5.md), are the
model's choices. -/
def Obligations.OnlyTheNamedOperationsWriteAnElement : Prop :=
  ∀ (i : Instr) (s t : State), exec i s = .next t →
    (t.raw ≠ s.raw ∨ t.cursor ≠ s.cursor → i = .poll ∨ i.agent = .edgeHandler) ∧
    (t.samplerEn ≠ s.samplerEn ∨ t.orchState ≠ s.orchState → i = .poll) ∧
    (t.tagId ≠ s.tagId ∨ t.tagRaw ≠ s.tagRaw → i = .clear ∨ (i = .poll ∧ t.result = .ready true)) ∧
    t.cfg = s.cfg ∧ t.pending = s.pending

/-- Until a POLL, `cursor` only grows and every populated bit stays (20_memory.md section 5: "`cursor` only grows until
the clear"). -/
def Obligations.PopulatedBitsStayUntilPoll : Prop :=
  ∀ (i : Instr) (s t : State), s.raw.wf → i ≠ .poll → exec i s = .next t →
    s.cursor ≤ t.cursor ∧ ∀ a, a < s.cursor → t.raw.read a = s.raw.read a

/-- READ_ID and READ_RAW with no POLL or CLEAR between them return a matching pair, whatever edges and reads fall in
between (20_memory.md section 4). -/
def Obligations.ReadsReturnAMatchingPair : Prop :=
  ∀ (s : State) (between : List Instr), RecordOk s.tagId s.tagRaw → .poll ∉ between → .clear ∉ between →
    ∃ t u p, runOps (.readId :: between) s = .next t ∧ exec .readRaw t = .next u ∧
      u.result = .raw p ∧ exec .readId s = .next { s with result := .id (project p) }

/-- An EDGE and a READ_ID, READ_RAW or CLEAR at the same moment: both orders give the same state. The same holds for a
POLL that stays below the threshold in both orders, that is with the bits the EDGE appends counted in (60_exceptions.md
section 3, D13: both orders are admitted). A POLL that decodes in one of the orders is not claimed to commute. -/
def Obligations.EdgeCommutesWithReadsAndClear : Prop :=
  ∀ (s : State) (level : Bit) (ticks : Nat) (i : Instr), i.agent = .foreground →
    let want := if 900 < ticks ∧ ticks < 1900 then 1 else if 2000 < ticks ∧ ticks < 4000 then 2 else 0
    let n := if s.samplerEn then min want (s.cfg.cap - s.cursor) else 0
    i ≠ .poll ∨ s.cursor + n < s.cfg.cap - 10 →
    ∃ u, runOps [.edge level ticks, i] s = .next u ∧ runOps [i, .edge level ticks] s = .next u

/-! ## Reset and invariants (10_state.md, 70_reset_and_hazards.md) -/

/-- After power-up reset every state element has the value of the reset table, for every choice of the parameters (the
values are the spec's decision D11; that `State.reset` takes 256 and 16 is the model's choice, notes/assumptions/1.md). -/
def Obligations.ResetLeavesTheTableOfValues : Prop :=
  (∀ c : Config, (∀ a, (State.resetWith c).raw.read a = false) ∧ (State.resetWith c).cursor = 0 ∧
    (State.resetWith c).samplerEn = true ∧ (State.resetWith c).orchState = .idle ∧
    (State.resetWith c).tagId = 0#32 ∧ (State.resetWith c).tagRaw = 0#64) ∧
  State.reset = State.resetWith { cap := 256, tickW := 16 }

/-- The invariants hold after reset, for every legal choice of the parameters, the default among them (the reset values
are the spec's decision D11; the parameters and the canonical form within `Inv` are the model's choice,
notes/assumptions/1.md and 2.md). -/
def Obligations.ResetMeetsTheInvariants : Prop :=
  (∀ c : Config, c.wf → Inv (State.resetWith c)) ∧ Inv State.reset

/-- Every step keeps the invariants of 10_state.md section 3 (derived there): `cursor <= CAP`, the bits above `cursor`
zero, the record empty or valid with its own projection, the sampler on and the orchestrator Idle; and with them the
canonical form of the buffer and the legal parameters, which are the model's choice (notes/assumptions/2.md, 1.md). -/
def Obligations.EveryStepKeepsTheInvariants : Prop :=
  ∀ s t : State, Inv s → step s = .next t → Inv t

/-- Whatever words the environment issues and whenever, every state the block comes to meets the invariants of
10_state.md section 3, and no step from it faults (60_exceptions.md section 1; the fault type is empty,
notes/assumptions/11.md). That the parameters stay those of reset (notes/assumptions/1.md) and the issuing of words
(4.md) are the model's choices, and so is the canonical form within `Inv` (2.md). -/
def Obligations.ReachableStatesMeetTheInvariants : Prop :=
  ∀ (c : Config) (s : State), c.wf → Reachable c s → Inv s ∧ s.cfg = c ∧ ∀ f : Fault, step s ≠ .fault f

/-- The state after reset is the state after CLEAR and a decoding POLL that found nothing, on the six state elements
(70_reset_and_hazards.md section 1, derived there; the model's own fields `result` and `pending` are set aside,
notes/assumptions/5.md and 4.md). -/
def Obligations.ClearAndAFailedDecodeEqualReset : Prop :=
  ∀ s : State, s.cursor ≤ s.cfg.cap → s.cfg.cap - 10 ≤ s.cursor → (∀ o, ¬ Accepts s.raw s.cursor o) →
    ∃ t, runOps [.clear, .poll] s = .next t ∧
      { t with result := .nothing, pending := [] } = State.resetWith s.cfg

/-! ## From edges to a record (95_test_vectors.md SP6, SP7) -/

/-- The edges of the shorthand RUNS append exactly the bit string, and touch nothing else (30_encoding.md section 7, the
spec's notation, D22). -/
def Obligations.RunsAppendTheirBits : Prop :=
  ∀ (bits : List Bit) (ops : List Instr) (s : State), runs bits = some ops → s.samplerEn = true → s.raw.wf →
    s.cursor + bits.length ≤ s.cfg.cap →
    ∃ raw', runOps ops s = .next { s with raw := raw', cursor := s.cursor + bits.length } ∧
      (∀ k, k < bits.length → raw'.read (s.cursor + k) = bits.getD k false) ∧
      ∀ a, a < s.cursor ∨ s.cursor + bits.length ≤ a → raw'.read a = s.raw.read a

/-- The 128 raw bits of a payload extract back to it, and hold a header when its header field is nine ones
(30_encoding.md sections 2 and 4: the pair code and the transmission order, derived there). -/
def Obligations.RawFrameExtractsBack : Prop :=
  ∀ (raw : Memory) (o : Nat) (p : Payload),
    (∀ k, k < 128 → raw.read (o + k) = (rawFrame p).getD k false) →
    payloadAt raw o = p ∧ (headerField p = 0b111111111#9 → headerAt raw o = true)

/-- The end-to-end scenario: from reset, edges that present a bit string holding the frame of an identifier, long enough
to reach the threshold and short enough to fit, with no lower candidate that validates, and then one POLL: the record is
that frame and that identifier (95_test_vectors.md SP6, for every legal capacity). -/
def Obligations.EdgesOfAFrameDecodeToItsIdentifier : Prop :=
  ∀ (c : Config) (v0 v1 : BitVec 4) (id : TagId) (before after : List Bit) (ops : List Instr), c.wf →
    let bits := before ++ rawFrame (build v0 v1 id) ++ after
    runs bits = some ops → c.cap - 10 ≤ bits.length → bits.length ≤ c.cap →
    (∀ o, o < before.length → ¬ Accepts (Memory.ofBits 0 bits) bits.length o) →
    ∃ t, runOps (ops ++ [.poll]) (State.resetWith c) = .next t ∧
      t.result = .ready true ∧ t.tagId = id ∧ t.tagRaw = build v0 v1 id ∧ t.cursor = 0 ∧
      exec .readId t = .next { t with result := .id id }
end

