-- ==== Sys2Proof/Laws/Decode.lean ====
section
/-! SUPPORT. What the decoder answers, said once. -/

namespace Sys2Proof

theorem noOperands_eq_ok (tickW w : Nat) (i j : Instr) :
    noOperands tickW w i = .ok j ↔ w % 2 ^ (tickW + 1) = 0 ∧ j = i := by
  unfold noOperands
  split <;> simp_all [eq_comm]

/-- The words that decode, and what to. -/
theorem decode_eq_ok (tickW w : Nat) (i : Instr) :
    decode tickW w = .ok i ↔
      (opField tickW w = 0 ∧ i = .edge (levelField tickW w) (ticksField tickW w)) ∨
      (w % 2 ^ (tickW + 1) = 0 ∧
        ((opField tickW w = 1 ∧ i = .poll) ∨ (opField tickW w = 2 ∧ i = .readId) ∨
          (opField tickW w = 3 ∧ i = .readRaw) ∨ (opField tickW w = 4 ∧ i = .clear))) := by
  unfold decode
  generalize opField tickW w = op
  rcases op with - | - | - | - | - | - | - | - | op <;> simp [noOperands_eq_ok]
  exact eq_comm

end Sys2Proof
end

