-- ==== Sys2Proof/Laws/Memory.lean ====
section
/-! SUPPORT. The laws of the RawBitBuffer: every operation keeps the canonical form, and a read after a write. -/

namespace Sys2Proof.Machine

@[simp] theorem Memory.unlisted_eq : Memory.unlisted = false := rfl

@[simp] theorem Memory.read_nil (a : Nat) : Memory.read [] a = false := rfl

@[simp] theorem Memory.read_cleared (a : Nat) : Memory.cleared.read a = false := rfl

theorem Memory.read_cons (b : Nat) (v : Bit) (m : Memory) (a : Nat) :
    Memory.read ((b, v) :: m) a = if a = b then v else m.read a := rfl

theorem Memory.wf_cleared : Memory.cleared.wf := by simp [Memory.cleared, Memory.wf]

theorem Memory.wf_cons (a : Nat) (v : Bit) (m : Memory) :
    Memory.wf ((a, v) :: m) ↔ v = true ∧ (∀ c ∈ m, a < c.1) ∧ m.wf := by
  simp only [Memory.wf, List.pairwise_cons, List.mem_cons, forall_eq_or_imp, Memory.unlisted_eq, ne_eq,
    Bool.not_eq_false]
  tauto

/-- An index below every listed one reads as unlisted. -/
theorem Memory.read_below (m : Memory) (a : Nat) (h : ∀ c ∈ m, a < c.1) : m.read a = false := by
  induction m with
  | nil => rfl
  | cons c m ih =>
    obtain ⟨b, v⟩ := c
    have hb : a < b := h (b, v) (by simp)
    rw [Memory.read_cons, if_neg (by omega)]
    exact ih fun c hc => h c (by simp [hc])

theorem Memory.read_consCell (a : Nat) (v : Bit) (m : Memory) (h : ∀ c ∈ m, a < c.1) (b : Nat) :
    (Memory.consCell a v m).read b = if b = a then v else m.read b := by
  cases v
  · by_cases hb : b = a
    · subst hb; simp [Memory.consCell, Memory.read_below m b h]
    · simp [Memory.consCell, hb]
  · simp [Memory.consCell, Memory.read_cons]

theorem Memory.wf_consCell (a : Nat) (v : Bit) (m : Memory) (h : ∀ c ∈ m, a < c.1) (hm : m.wf) :
    (Memory.consCell a v m).wf := by
  cases v
  · simpa [Memory.consCell] using hm
  · exact (Memory.wf_cons a true m).2 ⟨rfl, h, hm⟩

theorem Memory.mem_consCell {a : Nat} {v : Bit} {m : Memory} {c : Nat × Bit} (h : c ∈ Memory.consCell a v m) :
    c.1 = a ∨ c ∈ m := by
  unfold Memory.consCell at h
  split at h
  · exact .inr h
  · rcases List.mem_cons.1 h with rfl | h
    · exact .inl rfl
    · exact .inr h

/-- A write lists no index but the written one and those listed before. -/
theorem Memory.mem_write {m : Memory} {a : Nat} {v : Bit} {c : Nat × Bit} (h : c ∈ m.write a v) :
    c.1 = a ∨ c ∈ m := by
  induction m with
  | nil => exact Memory.mem_consCell h
  | cons d m ih =>
    obtain ⟨b, u⟩ := d
    simp only [Memory.write] at h
    split at h
    · exact Memory.mem_consCell h
    · split at h
      · exact (Memory.mem_consCell h).imp_right (List.mem_cons_of_mem _)
      · rcases List.mem_cons.1 h with rfl | h
        · exact .inr (by simp)
        · exact (ih h).imp_right (List.mem_cons_of_mem _)

/-- A write keeps the canonical form. -/
theorem Memory.wf_write (m : Memory) (a : Nat) (v : Bit) (hm : m.wf) : (m.write a v).wf := by
  induction m with
  | nil => exact Memory.wf_consCell a v [] (by simp) hm
  | cons d m ih =>
    obtain ⟨b, u⟩ := d
    obtain ⟨hu, hlt, hwf⟩ := (Memory.wf_cons b u m).1 hm
    simp only [Memory.write]
    split
    · rename_i hab
      refine Memory.wf_consCell a v _ ?_ hm
      rintro c hc
      rcases List.mem_cons.1 hc with rfl | hc
      · exact hab
      · exact hab.trans (hlt c hc)
    · split
      · rename_i hab; subst hab; exact Memory.wf_consCell a v m hlt hwf
      · refine (Memory.wf_cons b u _).2 ⟨hu, fun c hc => ?_, ih hwf⟩
        rcases Memory.mem_write hc with h | h
        · omega
        · exact hlt c h

/-- A read after a write: the written index holds the bit, every other index what it held. -/
theorem Memory.read_write (m : Memory) (a : Nat) (v : Bit) (hm : m.wf) (b : Nat) :
    (m.write a v).read b = if b = a then v else m.read b := by
  induction m with
  | nil => exact Memory.read_consCell a v [] (by simp) b
  | cons d m ih =>
    obtain ⟨c, u⟩ := d
    obtain ⟨-, hlt, hwf⟩ := (Memory.wf_cons c u m).1 hm
    simp only [Memory.write]
    split
    · rename_i hac
      refine Memory.read_consCell a v _ ?_ b
      rintro e he
      rcases List.mem_cons.1 he with rfl | he
      · exact hac
      · exact hac.trans (hlt e he)
    · split
      · rename_i hac; subst hac
        rw [Memory.read_consCell a v m hlt, Memory.read_cons]
        split <;> rfl
      · rename_i hac hne
        rw [Memory.read_cons, Memory.read_cons, ih hwf]
        by_cases hb : b = c
        · have : b ≠ a := by omega
          simp [hb, hb ▸ this]
        · simp [hb]

theorem Memory.ofBits_above (start : Nat) (bs : List Bit) : ∀ c ∈ Memory.ofBits start bs, start ≤ c.1 := by
  induction bs generalizing start with
  | nil => simp [Memory.ofBits, Memory.cleared]
  | cons b bs ih =>
    intro c hc
    rcases Memory.mem_consCell hc with h | h
    · omega
    · exact (Nat.le_succ start).trans (ih (start + 1) c h)

theorem Memory.wf_ofBits (start : Nat) (bs : List Bit) : (Memory.ofBits start bs).wf := by
  induction bs generalizing start with
  | nil => exact Memory.wf_cleared
  | cons b bs ih =>
    exact Memory.wf_consCell start b _ (fun c hc => Memory.ofBits_above (start + 1) bs c hc) (ih (start + 1))

/-- The buffer of a bit string holds its bits from `start` up, and 0 elsewhere. -/
theorem Memory.read_ofBits (start : Nat) (bs : List Bit) (a : Nat) :
    (Memory.ofBits start bs).read a = (decide (start ≤ a) && bs.getD (a - start) false) := by
  induction bs generalizing start with
  | nil => simp [Memory.ofBits]
  | cons b bs ih =>
    rw [Memory.ofBits, Memory.read_consCell start b _ (fun c hc => Memory.ofBits_above (start + 1) bs c hc),
      ih (start + 1)]
    rcases Nat.lt_trichotomy a start with h | h | h
    · simp [show a ≠ start by omega, show ¬ start ≤ a by omega, show ¬ start + 1 ≤ a by omega]
    · subst h; simp
    · obtain ⟨k, rfl⟩ : ∃ k, a = start + 1 + k := ⟨a - (start + 1), by omega⟩
      simp [show start + 1 + k ≠ start by omega, show start ≤ start + 1 + k by omega,
        show start + 1 + k - start = k + 1 by omega]

end Sys2Proof.Machine
end

