-- ==== Sys2Proof/Laws/State.lean ====
section
/-! SUPPORT. One lemma per field per update of State, all by definition: no proof needs to unfold a record update. -/

namespace Sys2Proof.Machine

/-! ## State.enterDecoding -/

@[simp] theorem State.enterDecoding_cfg (s : State) : (s.enterDecoding).cfg = s.cfg := rfl
@[simp] theorem State.enterDecoding_raw (s : State) : (s.enterDecoding).raw = s.raw := rfl
@[simp] theorem State.enterDecoding_cursor (s : State) : (s.enterDecoding).cursor = s.cursor := rfl
@[simp] theorem State.enterDecoding_samplerEn (s : State) : (s.enterDecoding).samplerEn = false := rfl
@[simp] theorem State.enterDecoding_orchState (s : State) : (s.enterDecoding).orchState = .decoding := rfl
@[simp] theorem State.enterDecoding_tagId (s : State) : (s.enterDecoding).tagId = s.tagId := rfl
@[simp] theorem State.enterDecoding_tagRaw (s : State) : (s.enterDecoding).tagRaw = s.tagRaw := rfl
@[simp] theorem State.enterDecoding_result (s : State) : (s.enterDecoding).result = s.result := rfl
@[simp] theorem State.enterDecoding_pending (s : State) : (s.enterDecoding).pending = s.pending := rfl

/-! ## State.setRecord -/

@[simp] theorem State.setRecord_cfg (s : State) (id : TagId) (p : Payload) : (s.setRecord id p).cfg = s.cfg := rfl
@[simp] theorem State.setRecord_raw (s : State) (id : TagId) (p : Payload) : (s.setRecord id p).raw = s.raw := rfl
@[simp] theorem State.setRecord_cursor (s : State) (id : TagId) (p : Payload) : (s.setRecord id p).cursor = s.cursor := rfl
@[simp] theorem State.setRecord_samplerEn (s : State) (id : TagId) (p : Payload) : (s.setRecord id p).samplerEn = s.samplerEn := rfl
@[simp] theorem State.setRecord_orchState (s : State) (id : TagId) (p : Payload) : (s.setRecord id p).orchState = s.orchState := rfl
@[simp] theorem State.setRecord_tagId (s : State) (id : TagId) (p : Payload) : (s.setRecord id p).tagId = id := rfl
@[simp] theorem State.setRecord_tagRaw (s : State) (id : TagId) (p : Payload) : (s.setRecord id p).tagRaw = p := rfl
@[simp] theorem State.setRecord_result (s : State) (id : TagId) (p : Payload) : (s.setRecord id p).result = s.result := rfl
@[simp] theorem State.setRecord_pending (s : State) (id : TagId) (p : Payload) : (s.setRecord id p).pending = s.pending := rfl

/-! ## State.clearBuffer -/

@[simp] theorem State.clearBuffer_cfg (s : State) : (s.clearBuffer).cfg = s.cfg := rfl
@[simp] theorem State.clearBuffer_raw (s : State) : (s.clearBuffer).raw = Memory.cleared := rfl
@[simp] theorem State.clearBuffer_cursor (s : State) : (s.clearBuffer).cursor = 0 := rfl
@[simp] theorem State.clearBuffer_samplerEn (s : State) : (s.clearBuffer).samplerEn = s.samplerEn := rfl
@[simp] theorem State.clearBuffer_orchState (s : State) : (s.clearBuffer).orchState = s.orchState := rfl
@[simp] theorem State.clearBuffer_tagId (s : State) : (s.clearBuffer).tagId = s.tagId := rfl
@[simp] theorem State.clearBuffer_tagRaw (s : State) : (s.clearBuffer).tagRaw = s.tagRaw := rfl
@[simp] theorem State.clearBuffer_result (s : State) : (s.clearBuffer).result = s.result := rfl
@[simp] theorem State.clearBuffer_pending (s : State) : (s.clearBuffer).pending = s.pending := rfl

/-! ## State.resumeIdle -/

@[simp] theorem State.resumeIdle_cfg (s : State) : (s.resumeIdle).cfg = s.cfg := rfl
@[simp] theorem State.resumeIdle_raw (s : State) : (s.resumeIdle).raw = s.raw := rfl
@[simp] theorem State.resumeIdle_cursor (s : State) : (s.resumeIdle).cursor = s.cursor := rfl
@[simp] theorem State.resumeIdle_samplerEn (s : State) : (s.resumeIdle).samplerEn = true := rfl
@[simp] theorem State.resumeIdle_orchState (s : State) : (s.resumeIdle).orchState = .idle := rfl
@[simp] theorem State.resumeIdle_tagId (s : State) : (s.resumeIdle).tagId = s.tagId := rfl
@[simp] theorem State.resumeIdle_tagRaw (s : State) : (s.resumeIdle).tagRaw = s.tagRaw := rfl
@[simp] theorem State.resumeIdle_result (s : State) : (s.resumeIdle).result = s.result := rfl
@[simp] theorem State.resumeIdle_pending (s : State) : (s.resumeIdle).pending = s.pending := rfl

/-! ## State.returns -/

@[simp] theorem State.returns_cfg (s : State) (r : Result) : (s.returns r).cfg = s.cfg := rfl
@[simp] theorem State.returns_raw (s : State) (r : Result) : (s.returns r).raw = s.raw := rfl
@[simp] theorem State.returns_cursor (s : State) (r : Result) : (s.returns r).cursor = s.cursor := rfl
@[simp] theorem State.returns_samplerEn (s : State) (r : Result) : (s.returns r).samplerEn = s.samplerEn := rfl
@[simp] theorem State.returns_orchState (s : State) (r : Result) : (s.returns r).orchState = s.orchState := rfl
@[simp] theorem State.returns_tagId (s : State) (r : Result) : (s.returns r).tagId = s.tagId := rfl
@[simp] theorem State.returns_tagRaw (s : State) (r : Result) : (s.returns r).tagRaw = s.tagRaw := rfl
@[simp] theorem State.returns_result (s : State) (r : Result) : (s.returns r).result = r := rfl
@[simp] theorem State.returns_pending (s : State) (r : Result) : (s.returns r).pending = s.pending := rfl

/-! ## State.issue -/

@[simp] theorem State.issue_cfg (s : State) (w : Nat) : (s.issue w).cfg = s.cfg := rfl
@[simp] theorem State.issue_raw (s : State) (w : Nat) : (s.issue w).raw = s.raw := rfl
@[simp] theorem State.issue_cursor (s : State) (w : Nat) : (s.issue w).cursor = s.cursor := rfl
@[simp] theorem State.issue_samplerEn (s : State) (w : Nat) : (s.issue w).samplerEn = s.samplerEn := rfl
@[simp] theorem State.issue_orchState (s : State) (w : Nat) : (s.issue w).orchState = s.orchState := rfl
@[simp] theorem State.issue_tagId (s : State) (w : Nat) : (s.issue w).tagId = s.tagId := rfl
@[simp] theorem State.issue_tagRaw (s : State) (w : Nat) : (s.issue w).tagRaw = s.tagRaw := rfl
@[simp] theorem State.issue_result (s : State) (w : Nat) : (s.issue w).result = s.result := rfl
@[simp] theorem State.issue_pending (s : State) (w : Nat) : (s.issue w).pending = s.pending ++ [w] := rfl

/-! ## State.record -/

@[simp] theorem State.record_cfg (s : State) (found : Option Payload) : (s.record found).cfg = s.cfg := by
  cases found <;> rfl
@[simp] theorem State.record_raw (s : State) (found : Option Payload) : (s.record found).raw = s.raw := by
  cases found <;> rfl
@[simp] theorem State.record_cursor (s : State) (found : Option Payload) : (s.record found).cursor = s.cursor := by
  cases found <;> rfl
@[simp] theorem State.record_samplerEn (s : State) (found : Option Payload) : (s.record found).samplerEn = s.samplerEn := by
  cases found <;> rfl
@[simp] theorem State.record_orchState (s : State) (found : Option Payload) : (s.record found).orchState = s.orchState := by
  cases found <;> rfl
@[simp] theorem State.record_result (s : State) (found : Option Payload) : (s.record found).result = s.result := by
  cases found <;> rfl
@[simp] theorem State.record_pending (s : State) (found : Option Payload) : (s.record found).pending = s.pending := by
  cases found <;> rfl
@[simp] theorem State.record_some (s : State) (p : Payload) : s.record (some p) = s.setRecord (project p) p := rfl
@[simp] theorem State.record_none (s : State) : s.record none = s := rfl

/-! ## State.withFetchWord -/

@[simp] theorem State.withFetchWord_cfg (s : State) (n w : Nat) : (s.withFetchWord n w).cfg = s.cfg := rfl
@[simp] theorem State.withFetchWord_raw (s : State) (n w : Nat) : (s.withFetchWord n w).raw = s.raw := rfl
@[simp] theorem State.withFetchWord_cursor (s : State) (n w : Nat) : (s.withFetchWord n w).cursor = s.cursor := rfl
@[simp] theorem State.withFetchWord_samplerEn (s : State) (n w : Nat) : (s.withFetchWord n w).samplerEn = s.samplerEn := rfl
@[simp] theorem State.withFetchWord_orchState (s : State) (n w : Nat) : (s.withFetchWord n w).orchState = s.orchState := rfl
@[simp] theorem State.withFetchWord_tagId (s : State) (n w : Nat) : (s.withFetchWord n w).tagId = s.tagId := rfl
@[simp] theorem State.withFetchWord_tagRaw (s : State) (n w : Nat) : (s.withFetchWord n w).tagRaw = s.tagRaw := rfl
@[simp] theorem State.withFetchWord_result (s : State) (n w : Nat) : (s.withFetchWord n w).result = s.result := rfl
@[simp] theorem State.withFetchWord_pending (s : State) (n w : Nat) : (s.withFetchWord n w).pending = w % 2 ^ n :: s.pending := rfl

end Sys2Proof.Machine
end

