-- ==== Sys2Proof/Laws/Sampler.lean ====
section
/-! SUPPORT. What APPEND and its repetition do to a state. -/

namespace Sys2Proof.Machine

/-- How many of `n` appended bits find room. -/
def room (n : Nat) (s : State) : Nat := min n (s.cfg.cap - s.cursor)

theorem append_of_lt (v : Bit) (s : State) (h : s.cursor < s.cfg.cap) :
    append v s = { s with raw := s.raw.write s.cursor v, cursor := s.cursor + 1 } := if_pos h

theorem append_of_le (v : Bit) (s : State) (h : s.cfg.cap ≤ s.cursor) : append v s = s :=
  if_neg (by omega)

@[simp] theorem append_cfg (v : Bit) (s : State) : (append v s).cfg = s.cfg := by
  unfold append; split <;> rfl

@[simp] theorem append_samplerEn (v : Bit) (s : State) : (append v s).samplerEn = s.samplerEn := by
  unfold append; split <;> rfl

@[simp] theorem append_orchState (v : Bit) (s : State) : (append v s).orchState = s.orchState := by
  unfold append; split <;> rfl

@[simp] theorem append_tagId (v : Bit) (s : State) : (append v s).tagId = s.tagId := by
  unfold append; split <;> rfl

@[simp] theorem append_tagRaw (v : Bit) (s : State) : (append v s).tagRaw = s.tagRaw := by
  unfold append; split <;> rfl

@[simp] theorem append_result (v : Bit) (s : State) : (append v s).result = s.result := by
  unfold append; split <;> rfl

@[simp] theorem append_pending (v : Bit) (s : State) : (append v s).pending = s.pending := by
  unfold append; split <;> rfl

theorem append_cursor (v : Bit) (s : State) : (append v s).cursor = s.cursor + room 1 s := by
  rcases Nat.lt_or_ge s.cursor s.cfg.cap with h | h
  · rw [append_of_lt v s h]; simp [room]; omega
  · rw [append_of_le v s h]; simp [room]; omega

theorem append_wf (v : Bit) (s : State) (h : s.raw.wf) : (append v s).raw.wf := by
  unfold append; split
  · exact Memory.wf_write _ _ _ h
  · exact h

/-- APPEND touches `raw` and `cursor` only. -/
theorem append_frame (v : Bit) (s : State) :
    append v s = { s with raw := (append v s).raw, cursor := (append v s).cursor } := by
  unfold append; split <;> rfl

/-- Repeated APPEND touches `raw` and `cursor` only. -/
theorem appendTimes_frame (n : Nat) (v : Bit) (s : State) :
    appendTimes n v s = { s with raw := (appendTimes n v s).raw, cursor := (appendTimes n v s).cursor } := by
  induction n generalizing s with
  | zero => rfl
  | succ n ih =>
    refine (ih (append v s)).trans ?_
    simp [appendTimes]

@[simp] theorem appendTimes_cfg (n : Nat) (v : Bit) (s : State) : (appendTimes n v s).cfg = s.cfg := by
  rw [appendTimes_frame]

theorem appendTimes_cursor (n : Nat) (v : Bit) (s : State) :
    (appendTimes n v s).cursor = s.cursor + room n s := by
  induction n generalizing s with
  | zero => simp [appendTimes, room]
  | succ n ih => rw [appendTimes, ih]; simp only [room, append_cfg, append_cursor]; omega

theorem appendTimes_wf (n : Nat) (v : Bit) (s : State) (h : s.raw.wf) : (appendTimes n v s).raw.wf := by
  induction n generalizing s with
  | zero => exact h
  | succ n ih => exact ih _ (append_wf v s h)

theorem append_read (v : Bit) (s : State) (h : s.raw.wf) (a : Nat) :
    (append v s).raw.read a = if a = s.cursor ∧ s.cursor < s.cfg.cap then v else s.raw.read a := by
  rcases Nat.lt_or_ge s.cursor s.cfg.cap with hc | hc
  · rw [append_of_lt v s hc]; simp [hc, Memory.read_write _ _ _ h]
  · rw [append_of_le v s hc]; simp [show ¬ s.cursor < s.cfg.cap by omega]

/-- Every stored bit is `v`; every other index holds what it held. -/
theorem appendTimes_read (n : Nat) (v : Bit) (s : State) (h : s.raw.wf) (a : Nat) :
    (appendTimes n v s).raw.read a =
      if s.cursor ≤ a ∧ a < s.cursor + room n s then v else s.raw.read a := by
  induction n generalizing s with
  | zero => simp [appendTimes, room]
  | succ n ih =>
    have e : room (n + 1) s = room 1 s + room n (append v s) := by
      simp only [room, append_cfg, append_cursor]; omega
    have one : room 1 s = if s.cursor < s.cfg.cap then 1 else 0 := by
      unfold room; split <;> omega
    rw [appendTimes, ih _ (append_wf v s h), append_read v s h, e, append_cursor, one]
    generalize room n (append v s) = k
    by_cases hc : s.cursor < s.cfg.cap
    · simp only [hc, if_true, and_true]
      split_ifs <;> first | rfl | (exfalso; omega)
    · simp only [hc, if_false, and_false, Nat.add_zero, Nat.zero_add]

/-- With no room left, or nothing to append, nothing changes. -/
theorem appendTimes_of_full (n : Nat) (v : Bit) (s : State) (h : s.cfg.cap ≤ s.cursor) : appendTimes n v s = s := by
  induction n with
  | zero => rfl
  | succ n ih => rw [appendTimes, append_of_le v s h, ih]

/-- APPEND does not look at the record or at what the foreground was returned. -/
theorem append_foreground (v : Bit) (s : State) (id : TagId) (p : Payload) (r : Result) :
    append v ((s.setRecord id p).returns r) = ((append v s).setRecord id p).returns r := by
  by_cases h : s.cursor < s.cfg.cap
  · rw [append_of_lt v s h]; exact append_of_lt v ((s.setRecord id p).returns r) h
  · rw [append_of_le v s (by omega)]; exact append_of_le v ((s.setRecord id p).returns r) (Nat.le_of_not_lt h)

/-- Repeated APPEND does not look at the record or at what the foreground was returned. -/
theorem appendTimes_foreground (n : Nat) (v : Bit) (s : State) (id : TagId) (p : Payload) (r : Result) :
    appendTimes n v ((s.setRecord id p).returns r) = ((appendTimes n v s).setRecord id p).returns r := by
  induction n generalizing s with
  | zero => rfl
  | succ n ih => rw [appendTimes, append_foreground, ih]; rfl

theorem room_le (n : Nat) (s : State) : room n s ≤ n := Nat.min_le_left _ _

theorem room_bound (n : Nat) (s : State) (h : s.cursor ≤ s.cfg.cap) : s.cursor + room n s ≤ s.cfg.cap := by
  unfold room; omega

end Sys2Proof.Machine
end

