-- ==== Sys2Proof/Laws/Exec.lean ====
section
/-! SUPPORT. Everything an operation and a step can do, said once. -/

namespace Sys2Proof.Machine

/-- The next state of each operation. -/
theorem exec_cases {i : Instr} {s t : State} (h : exec i s = .next t) :
    (∃ level ticks, i = .edge level ticks ∧
        t = if s.samplerEn then appendTimes (classify ticks).bits level s else s) ∨
    (i = .poll ∧ s.cursor < s.cfg.threshold ∧ t = s.returns (.ready false)) ∨
    (i = .poll ∧ s.cfg.threshold ≤ s.cursor ∧ t = pollDecode s) ∨
    (i = .readId ∧ t = s.returns (.id s.tagId)) ∨
    (i = .readRaw ∧ t = s.returns (.raw s.tagRaw)) ∨
    (i = .clear ∧ t = (s.setRecord 0#32 0#64).returns .nothing) := by
  cases i with
  | edge level ticks =>
    left
    refine ⟨level, ticks, rfl, ?_⟩
    simp only [exec, execEdge] at h
    split at h <;> simp_all
  | poll =>
    simp only [exec, execPoll] at h
    split at h <;> simp_all
  | readId => simp_all [exec, execReadId]
  | readRaw => simp_all [exec, execReadRaw]
  | clear => simp_all [exec, execClear]

/-- What a decoding POLL leaves, by what its search finds. -/
theorem pollDecode_cases (s : State) :
    (search s.raw s.cfg.cap s.cursor = none ∧ pollDecode s = (s.clearBuffer.resumeIdle).returns (.ready false)) ∨
    ∃ p, search s.raw s.cfg.cap s.cursor = some p ∧
      pollDecode s = ((s.setRecord (project p) p).clearBuffer.resumeIdle).returns (.ready true) := by
  have e : pollDecode s = ((s.enterDecoding.record (search s.raw s.cfg.cap s.cursor)).clearBuffer.resumeIdle).returns
      (.ready (search s.raw s.cfg.cap s.cursor).isSome) := rfl
  rw [e]
  cases search s.raw s.cfg.cap s.cursor with
  | none => exact .inl ⟨rfl, rfl⟩
  | some p => exact .inr ⟨p, rfl, rfl⟩

/-- A step that answers a next state is idle, or takes the oldest command word and runs its operation. -/
theorem step_cases {s t : State} (h : step s = .next t) :
    (s.pending = [] ∧ t = s) ∨
    (∃ w rest i, s.pending = w :: rest ∧ decode s.cfg.tickW w = .ok i ∧
      exec i { s with pending := rest } = .next t) := by
  unfold step at h
  split at h
  · rename_i hp; simp_all
  · rename_i w rest hp
    split at h
    · simp at h
    · rename_i i hd; exact .inr ⟨w, rest, i, hp, hd, h⟩

end Sys2Proof.Machine
end

