-- ==== Sys2Proof/Laws/Frame.lean ====
section
/-! SUPPORT. What VALIDATE asks of a payload, and the bits of a payload's fields and of the frame of an identifier. -/

namespace Sys2Proof.Machine

/-- VALIDATE answers `valid` exactly when the four checks pass. -/
theorem validate_eq_valid (p : Payload) :
    validate p = .valid ↔
      p ≠ 0#64 ∧ stopBit p = false ∧ (∀ r, r < 10 → rowOk p r = true) ∧ ∀ c, c < 4 → colOk p c = true := by
  unfold validate
  split_ifs with h1 h2 h3 h4
  · simp [h1]
  · simp [h2]
  · simp only [false_iff]
    rintro ⟨-, -, h, -⟩
    simp [Config.nRows] at h3
    obtain ⟨r, hr, h3⟩ := h3
    simp [h r hr] at h3
  · simp only [false_iff]
    rintro ⟨-, -, -, h⟩
    simp at h4
    obtain ⟨r, hr, h4⟩ := h4
    simp [h r hr] at h4
  · simp [Config.nRows] at h2 h3 h4
    exact ⟨fun _ => ⟨h1, h2, h3, h4⟩, fun _ => rfl⟩

/-- VALIDATE answers `invalid` exactly when it does not answer `valid`. -/
theorem validate_eq_invalid (p : Payload) : validate p = .invalid ↔ validate p ≠ .valid := by
  cases validate p <;> simp

/-- A column's exclusive or with its ten data bits written out. -/
theorem colXor_eq (p : Payload) (c : Nat) :
    colXor p c = (p.getLsbD (51 + c) ^^ p.getLsbD (46 + c) ^^ p.getLsbD (41 + c) ^^ p.getLsbD (36 + c) ^^
      p.getLsbD (31 + c) ^^ p.getLsbD (26 + c) ^^ p.getLsbD (21 + c) ^^ p.getLsbD (16 + c) ^^
      p.getLsbD (11 + c) ^^ p.getLsbD (6 + c)) := by
  simp [colXor, Config.nRows, List.range_succ, dataBit, rowBase]

/-- A bit of a data nibble is the payload's data bit. -/
theorem dataNibble_getLsbD (p : Payload) (r c : Nat) (hr : r < 10) (hc : c < 4) :
    (dataNibble p r).getLsbD c = p.getLsbD (51 - 5 * r + c) := by
  rw [dataNibble, BitVec.getLsbD_extractLsb', rowBase, show 50 - 5 * r + 1 + c = 51 - 5 * r + c by omega]
  simp [hc]

/-- Adding a row moves the rows before it up by five bits. -/
theorem buildRows_succ_getLsbD (v0 v1 : BitVec 4) (id : TagId) (n k : Nat) (hk : k < 64) :
    (buildRows v0 v1 id (n + 1)).getLsbD k =
      if k < 5 then (buildRow v0 v1 id n).getLsbD k else (buildRows v0 v1 id n).getLsbD (k - 5) := by
  unfold buildRows
  rw [List.range_succ, List.foldl_append, List.foldl_cons, List.foldl_nil]
  simp only [BitVec.getLsbD_or, BitVec.getLsbD_shiftLeft, BitVec.getLsbD_setWidth, hk, decide_true, Bool.true_and]
  by_cases h : k < 5
  · simp [h]
  · simp [h, BitVec.getLsbD_of_ge _ k (show 5 ≤ k by omega)]

/-- The bits of the header and the first `n` rows. -/
theorem buildRows_getLsbD (v0 v1 : BitVec 4) (id : TagId) (n k : Nat) (hk : k < 64) :
    (buildRows v0 v1 id n).getLsbD k =
      if k < 5 * n then (buildRow v0 v1 id (n - 1 - k / 5)).getLsbD (k % 5) else decide (k < 5 * n + 9) := by
  induction n generalizing k with
  | zero =>
    simp only [buildRows, List.range_zero, List.foldl_nil]
    have base : ∀ k, k < 64 → (0b111111111#64).getLsbD k = decide (k < 9) := by decide
    rw [if_neg (by omega), base _ hk]
  | succ n ih =>
    rw [buildRows_succ_getLsbD _ _ _ _ _ hk]
    by_cases h : k < 5
    · rw [if_pos h, if_pos (by omega), show n + 1 - 1 - k / 5 = n by omega, show k % 5 = k by omega]
    · rw [if_neg h, ih _ (by omega)]
      by_cases h2 : k < 5 * (n + 1)
      · rw [if_pos h2, if_pos (by omega), show n - 1 - (k - 5) / 5 = n + 1 - 1 - k / 5 by omega,
          show (k - 5) % 5 = k % 5 by omega]
      · rw [if_neg h2, if_neg (by omega)]; congr 1; rw [eq_iff_iff]; omega

/-- A row's bits: its parity below its nibble. -/
theorem buildRow_getLsbD (v0 v1 : BitVec 4) (id : TagId) (r c : Nat) (hc : c < 5) :
    (buildRow v0 v1 id r).getLsbD c =
      if c = 0 then nibbleParity (buildNibble v0 v1 id r) else (buildNibble v0 v1 id r).getLsbD (c - 1) := by
  unfold buildRow
  rw [BitVec.getLsbD_append, BitVec.getLsbD_ofBool]
  by_cases h : c = 0
  · simp [h]
  · simp [h, show ¬ c < 1 by omega]

/-- A column parity bit is the exclusive or of that column of the ten nibbles. -/
theorem buildColumns_getLsbD (v0 v1 : BitVec 4) (id : TagId) (c : Nat) :
    (buildColumns v0 v1 id).getLsbD c =
      (List.range 10).foldl (fun a r => a ^^ (buildNibble v0 v1 id r).getLsbD c) false := by
  unfold buildColumns Config.nRows
  have : ∀ (l : List Nat) (a : BitVec 4),
      (l.foldl (fun acc r => acc ^^^ buildNibble v0 v1 id r) a).getLsbD c =
        l.foldl (fun a r => a ^^ (buildNibble v0 v1 id r).getLsbD c) (a.getLsbD c) := by
    intro l
    induction l with
    | nil => intros; rfl
    | cons r l ih => intro a; rw [List.foldl_cons, ih, BitVec.getLsbD_xor, List.foldl_cons]
  rw [this]; simp

end Sys2Proof.Machine
end

