-- ==== Sys2Proof/Laws/PerInstr.lean ====
section
/-! SUPPORT. Facts about each operation as syntax, one lemma per constructor. -/

namespace Sys2Proof.Laws.EncodeFits

/-- The command word of a well-formed operation has `4 + TICK_W` bits (30_encoding.md R61). -/
def Statement (i : Instr) : Prop := ∀ tickW, i.wf tickW = true → encode tickW i < 2 ^ (4 + tickW)

theorem word_lt (tickW op rest : Nat) (hop : op ≤ 4) (hrest : rest < 2 ^ (tickW + 1)) :
    op * 2 ^ (tickW + 1) + rest < 2 ^ (4 + tickW) := by
  have e : 2 ^ (4 + tickW) = 8 * 2 ^ (tickW + 1) := by rw [Nat.pow_succ, Nat.pow_add]; omega
  have := Nat.mul_le_mul_right (2 ^ (tickW + 1)) hop
  omega

theorem edge (level : Bit) (ticks : Nat) : Statement (.edge level ticks) := by
  intro tickW h
  have h : ticks < 2 ^ tickW := by simpa [Instr.wf] using h
  rw [encode]
  refine word_lt tickW _ _ (Nat.zero_le _) ?_
  have : 2 ^ (tickW + 1) = 2 * 2 ^ tickW := by rw [Nat.pow_succ]; omega
  have : level.toNat ≤ 1 := Bool.toNat_le level
  have := Nat.mul_le_mul_right (2 ^ tickW) this
  simp only [Instr.operandField]
  omega

theorem poll : Statement .poll := by
  intro tickW _
  rw [encode]
  exact word_lt tickW _ _ (by decide) (Nat.two_pow_pos _)

theorem readId : Statement .readId := by
  intro tickW _
  rw [encode]
  exact word_lt tickW _ _ (by decide) (Nat.two_pow_pos _)

theorem readRaw : Statement .readRaw := by
  intro tickW _
  rw [encode]
  exact word_lt tickW _ _ (by decide) (Nat.two_pow_pos _)

theorem clear : Statement .clear := by
  intro tickW _
  rw [encode]
  exact word_lt tickW _ _ (by decide) (Nat.two_pow_pos _)

end Sys2Proof.Laws.EncodeFits
end

