-- ==== Sys2Proof/Laws/Units.lean ====
section
/-! SUPPORT. What the scan of LOCATE, the payload of EXTRACT and the decode loop compute, said once. -/

namespace Sys2Proof.Machine

/-- How many of the `n` offsets from `o` up hold a header. -/
def headersFrom (raw : Memory) (o n : Nat) : Nat := (List.range n).countP fun j => headerAt raw (o + j)

@[simp] theorem headersFrom_zero (raw : Memory) (o : Nat) : headersFrom raw o 0 = 0 := rfl

theorem headersFrom_succ (raw : Memory) (o n : Nat) :
    headersFrom raw o (n + 1) = (if headerAt raw o then 1 else 0) + headersFrom raw (o + 1) n := by
  unfold headersFrom
  rw [List.range_succ_eq_map, List.countP_cons, List.countP_map]
  simp only [Nat.add_zero, Function.comp_def, Nat.succ_eq_add_one]
  rw [Nat.add_comm]
  congr 3
  funext j
  congr 1
  omega

theorem headersFrom_last (raw : Memory) (o n : Nat) :
    headersFrom raw o (n + 1) = headersFrom raw o n + if headerAt raw (o + n) then 1 else 0 := by
  unfold headersFrom
  rw [List.range_succ, List.countP_append]
  simp [List.countP_cons]

/-- The scan finds `o'` exactly when `o'` is in its range, holds a header, and `skip` matches come before it. -/
theorem locateFrom_found (raw : Memory) (skip n o count o' : Nat) :
    locateFrom raw skip n o count = .found o' ↔
      ∃ j, j < n ∧ o' = o + j ∧ headerAt raw o' = true ∧ count + headersFrom raw o j = skip := by
  induction n generalizing o count with
  | zero => simp [locateFrom]
  | succ n ih =>
    unfold locateFrom
    by_cases hh : headerAt raw o = true
    · by_cases hc : count = skip
      · simp only [hh, hc, if_true, Located.found.injEq]
        constructor
        · rintro rfl; exact ⟨0, by omega, rfl, hh, by simp⟩
        · rintro ⟨j, hj, rfl, -, hs⟩
          rcases j with - | j
          · rfl
          · rw [headersFrom_succ, if_pos hh] at hs; omega
      · simp only [hh, hc, if_true, if_false, ih]
        constructor
        · rintro ⟨j, hj, rfl, h1, h2⟩
          exact ⟨j + 1, by omega, by omega, h1, by rw [headersFrom_succ, if_pos hh]; omega⟩
        · rintro ⟨j, hj, rfl, h1, h2⟩
          rcases j with - | j
          · simp at h2; exact absurd h2 hc
          · rw [headersFrom_succ, if_pos hh] at h2
            exact ⟨j, by omega, by omega, h1, by omega⟩
    · rw [if_neg hh, ih]
      constructor
      · rintro ⟨j, hj, rfl, h1, h2⟩
        exact ⟨j + 1, by omega, by omega, h1, by rw [headersFrom_succ, if_neg hh]; omega⟩
      · rintro ⟨j, hj, rfl, h1, h2⟩
        rcases j with - | j
        · exact absurd h1 (by simpa using hh)
        · rw [headersFrom_succ, if_neg hh] at h2
          exact ⟨j, by omega, by omega, h1, by omega⟩

/-- The scan finds nothing exactly when its range holds too few headers. -/
theorem locateFrom_notFound (raw : Memory) (skip n o count : Nat) (h : count ≤ skip) :
    locateFrom raw skip n o count = .notFound ↔ count + headersFrom raw o n ≤ skip := by
  induction n generalizing o count with
  | zero => simp [locateFrom, h]
  | succ n ih =>
    unfold locateFrom
    rw [headersFrom_succ]
    by_cases hh : headerAt raw o = true
    · by_cases hc : count = skip
      · simp [hh, hc]
      · simp only [hh, hc, if_true, if_false]
        rw [ih _ _ (by omega)]; omega
    · rw [if_neg hh, ih _ _ h, if_neg hh]; omega

/-- A payload bit is the bit of its pair. -/
theorem payloadAt_getLsbD (raw : Memory) (o i : Nat) :
    (payloadAt raw o).getLsbD i =
      (decide (i < 64) && pairBit (raw.read (o + 2 * (63 - i))) (raw.read (o + 2 * (63 - i) + 1))) := by
  unfold payloadAt
  rw [BitVec.getLsbD_ofFnLE]
  split <;> simp_all

/-- What a candidate needs to succeed. -/
theorem candidate_eq_some (raw : Memory) (cursor o : Nat) (p : Payload) :
    candidate raw cursor o = some p ↔
      o + Config.rawPerFrame ≤ cursor ∧ validate (payloadAt raw o) = .valid ∧ p = payloadAt raw o := by
  unfold candidate extract
  by_cases h : o + Config.rawPerFrame > cursor
  · simp [h]
  · simp only [h, if_false]
    cases hv : validate (payloadAt raw o)
    · simp [show o + Config.rawPerFrame ≤ cursor by omega, eq_comm]
    · simp

theorem candidate_eq_none (raw : Memory) (cursor o : Nat) :
    candidate raw cursor o = none ↔
      cursor < o + Config.rawPerFrame ∨ validate (payloadAt raw o) = .invalid := by
  unfold candidate extract
  by_cases h : o + Config.rawPerFrame > cursor
  · simp [h]
  · simp only [h, if_false]
    cases hv : validate (payloadAt raw o) <;> simp_all

/-- A round succeeds exactly when its ordinal has a header whose candidate does. -/
theorem attempt_eq_success (raw : Memory) (cap cursor skip : Nat) (p : Payload) :
    attempt raw cap cursor skip = .success p ↔
      ∃ o, locate raw cap skip = .found o ∧ candidate raw cursor o = some p := by
  unfold attempt
  cases locate raw cap skip with
  | notFound => simp
  | found o => cases hc : candidate raw cursor o <;> simp [hc]

/-- A round fails exactly when its ordinal has a header whose candidate does not succeed. -/
theorem attempt_eq_failed (raw : Memory) (cap cursor skip : Nat) :
    attempt raw cap cursor skip = .failed ↔
      ∃ o, locate raw cap skip = .found o ∧ candidate raw cursor o = none := by
  unfold attempt
  cases locate raw cap skip with
  | notFound => simp
  | found o => cases hc : candidate raw cursor o <;> simp [hc]

/-- A round is exhausted exactly when there is no header with its ordinal. -/
theorem attempt_eq_exhausted (raw : Memory) (cap cursor skip : Nat) :
    attempt raw cap cursor skip = .exhausted ↔ locate raw cap skip = .notFound := by
  unfold attempt
  cases locate raw cap skip with
  | notFound => simp
  | found o => cases hc : candidate raw cursor o <;> simp [hc]

/-- The loop succeeds at the first ordinal whose round does, if the fuel reaches it and every round before it failed. -/
theorem decodeLoop_eq_some (round : Nat → Attempt) (fuel skip : Nat) (p : Payload) :
    decodeLoop round fuel skip = some p ↔
      ∃ k, k < fuel ∧ round (skip + k) = .success p ∧ ∀ k', k' < k → round (skip + k') = .failed := by
  induction fuel generalizing skip with
  | zero => simp [decodeLoop]
  | succ fuel ih =>
    have first : ∀ k, (∀ k', k' < k → round (skip + k') = .failed) → round skip ≠ .failed → k = 0 := by
      intro k hk hne
      rcases k with - | k
      · rfl
      · exact absurd (hk 0 (by omega)) hne
    cases hr : round skip with
    | exhausted =>
      simp only [decodeLoop, hr]
      refine ⟨by simp, fun ⟨k, _, h, hk⟩ => ?_⟩
      obtain rfl := first k hk (by simp [hr])
      simp [hr] at h
    | success q =>
      simp only [decodeLoop, hr]
      refine ⟨fun h => ⟨0, by omega, by simpa [hr] using h, by omega⟩, fun ⟨k, _, h, hk⟩ => ?_⟩
      obtain rfl := first k hk (by simp [hr])
      simpa [hr] using h
    | failed =>
      simp only [decodeLoop, hr, ih]
      constructor
      · rintro ⟨k, hf, h, hk⟩
        refine ⟨k + 1, by omega, by rw [← h]; congr 1; omega, fun k' hk' => ?_⟩
        rcases k' with - | k'
        · exact hr
        · rw [← hk k' (by omega)]; congr 1; omega
      · rintro ⟨k, hf, h, hk⟩
        rcases k with - | k
        · simp [hr] at h
        · refine ⟨k, by omega, by rw [← h]; congr 1; omega, fun k' hk' => ?_⟩
          rw [← hk (k' + 1) (by omega)]; congr 1; omega

end Sys2Proof.Machine
end

