-- ==== Sys2Proof/Laws/Safety.lean ====
section
/-! SUPPORT. The terms of Safety.lean: header counts, header bits, sequences of operations. -/

namespace Sys2Proof.Machine

/-- A header, bit by bit against the constant. -/
theorem headerAt_iff (raw : Memory) (o : Nat) :
    headerAt raw o = true ↔ ∀ i, i < 18 → raw.read (o + i) = Config.hdr.getLsbD i := by
  simp [headerAt, Config.hdrLen]

/-- The constant's bits: 0 and 1 in turn. -/
theorem hdr_getLsbD : ∀ i, i < 18 → Config.hdr.getLsbD i = decide (i % 2 = 1) := by decide

/-- The scan from offset 0 counts what `matchesBelow` counts. -/
theorem headersFrom_zero_eq (raw : Memory) (n : Nat) : headersFrom raw 0 n = matchesBelow raw n := by
  unfold headersFrom matchesBelow
  simp

theorem matchesBelow_succ (raw : Memory) (n : Nat) :
    matchesBelow raw (n + 1) = matchesBelow raw n + if headerAt raw n then 1 else 0 := by
  have := headersFrom_last raw 0 n
  simpa [headersFrom_zero_eq] using this

@[simp] theorem runOps_nil (s : State) : runOps [] s = .next s := rfl

/-- The first operation of a sequence runs first. -/
theorem runOps_cons (i : Instr) (is : List Instr) (s t : State) (h : exec i s = .next t) :
    runOps (i :: is) s = runOps is t := by
  rw [runOps, h]

end Sys2Proof.Machine
end

