-- ==== Sys2Proof/Tests/Slice0.lean ====
section
/-! SUPPORT. Tests. Every expected value comes from the spec: a word is written out from the fields of 30_encoding.md
R61 and R62, a result from a vector of 95_test_vectors.md (V-…, P2), named beside its test. After the tests, for every
obligation with hypotheses, a witness that meets them together. -/

namespace Sys2Proof.Tests

open Sys2Proof.Machine

/-! ## Helpers -/

/-- The `n` bits of a number as the spec prints raw bits: leftmost first. -/
def bitsOf (n w : Nat) : List Bit := (List.range n).map fun i => w.testBit (n - 1 - i)

/-- The default block with these first raw bits and this `cursor`. -/
def filled (bits : List Bit) (cursor : Nat) : State :=
  { State.reset with raw := Memory.ofBits 0 bits, cursor := cursor }

/-- The state after one step on the command word `w`. -/
def after (w : Nat) (s : State) : Option State :=
  match step (s.withFetchWord 20 w) with
  | .next t => some t
  | _ => none

/-- The refusal a step or an operation answers with, if it does. -/
def refusal {σ : Type} : Host.Outcome σ Fault Refusal → Option Refusal
  | .refused r => some r
  | _ => none

/-- The reference frame V-X1, its 128 raw bits as the spec prints them. -/
def frameBits : List Bit :=
  bitsOf 64 0b0101010101010101011010101010100101101010101010101010101010101010 ++
  bitsOf 64 0b0101101001100110011001100110100110010101100110100101101001101010

/-- The buffer of program P2 before its POLL, 246 bits. -/
def p2Bits : List Bit :=
  bitsOf 64 0b1010101010010110101010101010101010101010101001011010011001100110 ++
  bitsOf 64 0b0110011010011001010110011010010110100110101001010101010101010110 ++
  bitsOf 64 0b1010101010010110101010101010101010101010101001011010011001100110 ++
  bitsOf 54 0b011001101001100101011001101001011010011010100101010101

/-! ## Syntax and decoding (30_encoding.md R61, R62, R64) -/

theorem test_ticks_too_wide_is_ill_formed : Instr.wf 16 (.edge false 65536) = false := by decide
theorem test_ticks_at_the_top_is_well_formed : Instr.wf 16 (.edge false 65535) = true := by decide

theorem test_decode_edge : decode 16 0b000_1_0000101110111000 = .ok (.edge true 3000) := by decide
theorem test_decode_edge_level_zero : decode 16 0b000_0_1111111111111111 = .ok (.edge false 65535) := by decide
theorem test_decode_poll : decode 16 0b001_0_0000000000000000 = .ok .poll := by decide
theorem test_decode_read_id : decode 16 0b010_0_0000000000000000 = .ok .readId := by decide
theorem test_decode_read_raw : decode 16 0b011_0_0000000000000000 = .ok .readRaw := by decide
theorem test_decode_clear : decode 16 0b100_0_0000000000000000 = .ok .clear := by decide
/-- Another width, from R61: `level` is bit 12 when `TICK_W = 12`. -/
theorem test_decode_edge_tick_width_12 : decode 12 0b000_1_010101111000 = .ok (.edge true 1400) := by decide

/-- V-O7. -/
theorem test_reserved_words_are_refused :
    decode 16 0xA0000 = .error (.op 5) ∧ decode 16 0xC0000 = .error (.op 6) ∧ decode 16 0xE0000 = .error (.op 7) ∧
    decode 16 0x20001 = .error (.operandBits 1) ∧ decode 16 0x50000 = .error (.operandBits 2) ∧
    decode 16 0x100000 = .error .tooWide := by decide

/-- V-O7: a step refuses them too. -/
theorem test_step_refuses_a_reserved_word :
    refusal (step (State.reset.withFetchWord 20 0x50000)) = some (.reserved (.operandBits 2)) := by decide

theorem test_table_word : decodeTableWord 20 0x00578 = some (.edge false 1400) := by decide

theorem test_reset_memory_is_canonical : State.reset.raw.wf := by decide

/-! ## The operations, at most two tests each -/

/-- V-E1, the rows 901, 1900, 2001 and 3999, as bits appended from `cursor = 7`. -/
theorem test_edge_classes :
    (after 0x10385 (filled [] 7)).map (·.cursor) = some 8 ∧ (after 0x1076C (filled [] 7)).map (·.cursor) = some 7 ∧
    (after 0x107D1 (filled [] 7)).map (·.cursor) = some 9 ∧
    (after 0x10F9F (filled [] 7)).map (·.raw) = some [(7, true), (8, true)] := by decide

/-- V-E3: a long interval with one free slot. -/
theorem test_edge_partial_append :
    (after 0x10BB8 (filled [] 255)).map (fun t => (t.cursor, t.raw)) = some (256, [(255, true)]) := by decide +kernel

/-- P2: six false headers, success at skip 6. -/
theorem test_poll_decodes_p2 :
    (after 0x20000 (filled p2Bits 246)).map (fun t => (t.result, t.tagRaw, t.tagId)) =
      some (.ready true, 0xFF818000CAA974C8#64, 0x001259E3#32) := by decide +kernel

/-- V-O2: one bit below the threshold nothing happens; at it the buffer is cleared. -/
theorem test_poll_threshold :
    (after 0x20000 (filled [true] 245)).map (fun t => (t.result, t.cursor, t.raw)) =
      some (.ready false, 245, [(0, true)]) ∧
    (after 0x20000 (filled [true] 246)).map (fun t => (t.result, t.cursor, t.raw)) =
      some (.ready false, 0, []) := by decide +kernel

/-- The state before the CLEAR of P1. -/
def stored : State := { State.reset with tagId := 0x001259E3#32, tagRaw := 0xFF818000CAA974C8#64 }

/-- P1: the accessor returns the identifier, and reads do not clear. -/
theorem test_read_id :
    (after 0x40000 stored).map (fun t => (t.result, t.tagId)) = some (.id 0x001259E3#32, 0x001259E3#32) := by decide

/-- P1. -/
theorem test_read_raw :
    (after 0x60000 stored).map (fun t => (t.result, t.tagRaw)) =
      some (.raw 0xFF818000CAA974C8#64, 0xFF818000CAA974C8#64) := by decide

/-- V-O6: both fields, and nothing of the capture. -/
theorem test_clear :
    (after 0x80000 { stored with raw := [(3, true)], cursor := 100 }).map
        (fun t => (t.tagId, t.tagRaw, t.raw, t.cursor)) = some (0#32, 0#64, [(3, true)], 100) := by decide

/-! ## The units -/

/-- V-L1, V-L2, V-L3. -/
theorem test_locate :
    locate (Memory.ofBits 0 (bitsOf 18 0b010101010101010101)) 256 0 = .found 0 ∧
    locate (Memory.ofBits 0 (bitsOf 20 0b01010101010101010101)) 256 1 = .found 2 ∧
    locate (Memory.ofBits 0 (bitsOf 20 0b10101010101010101010)) 256 0 = .found 1 ∧
    locate (Memory.ofBits 0 (bitsOf 18 0b010101010101010101)) 256 1 = .notFound := by decide +kernel

/-- V-L6: the last offset at which 18 bits fit. -/
theorem test_locate_at_the_end :
    locate (Memory.ofBits 238 (bitsOf 18 0b010101010101010101)) 256 0 = .found 238 ∧
    locate (Memory.ofBits 239 (bitsOf 17 0b01010101010101010)) 256 0 = .notFound := by decide +kernel

/-- V-X2. -/
theorem test_extract :
    extract (Memory.ofBits 0 frameBits) 128 0 = .payload 0xFF818000CAA974C8#64 ∧
    extract (Memory.ofBits 0 frameBits) 127 0 = .outOfRange := by decide +kernel

/-- V-X4, V-X5: every pair but `0,1` gives 0. -/
theorem test_pairs :
    pairBit false true = true ∧ pairBit true false = false ∧ pairBit false false = false ∧
    pairBit true true = false := by decide

/-- V-V1, V-V4, V-V6, V-V7, V-V9, V-V10, V-V13. -/
theorem test_validate :
    validate 0xFF818000CAA974C8#64 = .valid ∧ validate 0xFF818000CAA974C9#64 = .invalid ∧
    validate 0xFF858000CAA974C8#64 = .invalid ∧ validate 0xFF818000CAA974D8#64 = .invalid ∧
    validate 0xFF818200CAA974C8#64 = .invalid ∧ validate 0xFF818300CAA974CA#64 = .valid ∧
    validate 0x8000000000000000#64 = .valid := by decide +kernel

/-- V-P1, V-P9, V-P10, V-P11. -/
theorem test_project :
    project 0xFF818000CAA974C8#64 = 0x001259E3#32 ∧ project 0x00001E0000000000#64 = 0xF0000000#32 ∧
    project 0x00000000000003C0#64 = 0x0000000F#32 ∧ project 0x007FE1084210843F#64 = 0#32 := by decide +kernel

/-- V-B1, V-B5, V-B6. -/
theorem test_build :
    build 0x0#4 0x6#4 0x001259E3#32 = 0xFF818000CAA974C8#64 ∧
    build 0x0#4 0x1#4 0x00000001#32 = 0xFF80600000000060#64 ∧
    build 0xA#4 0x5#4 0xDEADBEEF#32 = 0xFFD15BED377EF7DE#64 := by decide +kernel

/-- V-X1: the raw bits of the reference frame. -/
theorem test_raw_frame : rawFrame 0xFF818000CAA974C8#64 = frameBits := by decide +kernel

/-- The first edges of P1: `S0 S1 L0 L1` from the raw bits `010011`, followed by a 0. -/
theorem test_runs :
    runs (bitsOf 7 0b0100110) = some [.edge false 1400, .edge true 1400, .edge false 3000, .edge true 3000,
      .edge false 1400] ∧ runs [true, true, true] = none := by decide

/-- U13: a foreground operation inside a POLL that is split into steps is refused. -/
theorem test_split_poll_refuses_a_read :
    refusal (splitIssue .readId (splitEnter (filled [] 246))) = some .foregroundBusy := by decide

/-! ## Witnesses: concrete inputs that meet an obligation's hypotheses together -/

theorem witness_DecodeOfEncodeIsTheOperation : ∃ tickW i, Instr.wf tickW i = true ∧ i = .edge true 4095 :=
  ⟨12, .edge true 4095, by decide, rfl⟩

theorem witness_DecodedWordIsItsOwnEncoding : ∃ tickW w i, decode tickW w = .ok i := ⟨16, 0x1FFFF, _, rfl⟩

theorem witness_TableRowsMatchExactlyTheirOperations :
    (∃ row, row ∈ opcodeTable ∧ (0x80000#20 &&& row.mask = row.matchValue)) ∧
    ∃ level ticks, decode 16 (0x1FFFF#20).toNat = .ok (.edge level ticks) :=
  ⟨⟨{ mnemonic := "CLEAR", mask := 0xFFFFF#20, matchValue := 0x80000#20 }, by decide, by decide⟩, true, 65535,
    by decide⟩

/-- Both sides of the equivalence occur: CLEAR's word is run, the next operation code is refused. -/
theorem witness_StepRefusesExactlyTheReservedWords :
    (∃ s : State, s.pending = [0x80000] ∧ ∃ t, step s = .next t) ∧
    ∃ (s : State) (why : Reserved), s.pending = [0xA0000] ∧ step s = .refused (.reserved why) :=
  ⟨⟨State.reset.issue 0x80000, rfl, _, rfl⟩, State.reset.issue 0xA0000, .op 5, rfl, rfl⟩

theorem witness_StepRunsTheDecodedOperation :
    (∃ (s : State) (w : Nat) (i : Instr), s.pending = [w] ∧ decode s.cfg.tickW w = .ok i) ∧
    ∃ s : State, s.pending = [] :=
  ⟨⟨State.reset.issue 0x20000, 0x20000, .poll, rfl, rfl⟩, State.reset, rfl⟩

theorem witness_EveryOperationReturns : ∃ (s : State) (r : Refusal), step s = .refused r :=
  ⟨State.reset.issue 0x20001, _, rfl⟩

/-- Both clauses: the last free slot, and the full buffer. -/
theorem witness_AppendWritesAtTheCursorOrNothing :
    (∃ s : State, s.raw.wf ∧ s.cursor < s.cfg.cap ∧ s.cursor = 255) ∧
    ∃ s : State, s.raw.wf ∧ s.cfg.cap ≤ s.cursor ∧ s.cursor = 256 :=
  ⟨⟨filled [] 255, by decide, by decide, rfl⟩, filled [] 256, by decide, by decide, rfl⟩

theorem witness_EdgeAppendsWhatTheIntervalSays : ∃ s : State, s.raw.wf ∧ s.raw ≠ [] ∧ s.cursor < s.cfg.cap :=
  ⟨filled [true, false, true] 3, by decide⟩

theorem witness_FullBufferIgnoresEdgesUntilPoll :
    ∃ (s t : State) (i : Instr), s.cursor = s.cfg.cap ∧ i ≠ .poll ∧ exec i s = .next t ∧ s.raw ≠ [] :=
  ⟨filled [true] 256, _, .clear, rfl, by decide, rfl, by decide⟩

/-- Each clause at its boundaries. -/
theorem witness_NoiseIntervalChangesNothing :
    ∀ ticks ∈ [0, 900, 1900, 2000, 4000, 65535],
      ticks ≤ 900 ∨ (1900 ≤ ticks ∧ ticks ≤ 2000) ∨ 4000 ≤ ticks := by decide

theorem witness_LocateReturnsTheKthHeader :
    locate (Memory.ofBits 0 frameBits) 256 0 = .found 0 ∧
    matchesBelow (Memory.ofBits 0 frameBits) (256 + 1 - 18) ≤ 10 := by decide +kernel

theorem witness_NotFoundExactlyWhenTooFewHeaders :
    (∃ raw : Memory, ∀ a, a < 256 → raw.read a = false) ∧ ∃ raw : Memory, ∀ a, a < 256 → raw.read a = true :=
  ⟨⟨[], fun _ _ => rfl⟩, Memory.ofBits 0 (List.replicate 256 true), fun a h => by
    rw [Memory.read_ofBits, List.getD_replicate _ (by omega)]
    simp⟩

theorem witness_HeadersOverlapButNeverTouch :
    ∃ raw : Memory, headerAt raw 0 = true ∧
      ∀ k, k < 10 → raw.read (0 + 2 * k) = false ∧ raw.read (0 + 2 * k + 1) = true :=
  ⟨Memory.ofBits 0 (bitsOf 20 0b01010101010101010101), by decide +kernel, by decide +kernel⟩

theorem witness_HeadersLieInThePopulatedExtent :
    ∃ (raw : Memory) (cap cursor : Nat), Clean raw cursor ∧ cursor ≤ cap ∧ headerAt raw 0 = true :=
  ⟨Memory.ofBits 0 (bitsOf 18 0b010101010101010101), 256, 18, fun i h => by
    rw [Memory.read_ofBits, List.getD_eq_default _ _ h, Bool.and_false], by decide, by decide +kernel⟩

theorem witness_DecodeDoesNotDependOnTheScanEnd :
    ∃ cap cursor c : Nat, 138 ≤ cap ∧ cursor ≤ cap ∧ cap - 110 ≤ c ∧ c ≤ cap ∧ c ≠ cap := ⟨138, 138, 28, by decide⟩

/-- Memories that agree below the bound and differ at it; an EDGE that stores the last bit. -/
theorem witness_AccessesStayInsideTheBuffer :
    (∃ raw raw' : Memory, raw ≠ raw' ∧ ∀ a, a < 256 → raw.read a = raw'.read a) ∧
    ∃ s t : State, s.raw.wf ∧ exec (.edge true 3000) s = .next t ∧ s.cfg.cap ≤ 256 ∧ t.raw ≠ s.raw :=
  ⟨⟨[], [(256, true)], by decide, fun a h => by simp [Memory.read, Nat.ne_of_lt h]⟩,
    filled [] 255, _, by decide, rfl, by decide, by decide +kernel⟩

/-- Both clauses at the boundary: 128 populated bits, and one fewer. -/
theorem witness_ExtractFailsExactlyPastTheExtent : 0 + 128 ≤ 128 ∧ 0 + 128 > 127 := by decide

theorem witness_ExtractDecodesPairsMostSignificantFirst : ∃ o cursor : Nat, o + 128 ≤ cursor ∧ 0 < o := ⟨1, 129, by decide⟩

theorem witness_HeaderExtractsToNineOnes : ∃ (raw : Memory) (o : Nat), headerAt raw o = true :=
  ⟨Memory.ofBits 0 frameBits, 0, by decide +kernel⟩

theorem witness_ZeroStopAndRowChecksReject :
    (∃ p : Payload, p.getLsbD 0 = true) ∧
    ∃ (p : Payload) (r : Nat), r < 10 ∧
      (p.getLsbD (50 - 5 * r + 4) ^^ p.getLsbD (50 - 5 * r + 3) ^^ p.getLsbD (50 - 5 * r + 2) ^^
        p.getLsbD (50 - 5 * r + 1)) ≠ p.getLsbD (50 - 5 * r) :=
  ⟨⟨1#64, by decide⟩, 0x20#64, 9, by decide⟩

theorem witness_OneAndTwoBitErrorsAreDetected :
    ∃ (p : Payload) (i j : Nat), validate p = .valid ∧ i < j ∧ j < 55 :=
  ⟨0xFF818000CAA974C8#64, 0, 54, by decide +kernel, by decide, by decide⟩

theorem witness_DataRowColumnTripleErrorIsNotDetected :
    ∃ (p : Payload) (r c : Nat), validate p = .valid ∧ headerField p = 0b111111111#9 ∧ r < 10 ∧ c < 4 :=
  ⟨0xFF818000CAA974C8#64, 9, 3, by decide +kernel, by decide, by decide, by decide⟩

theorem witness_HeaderBitsAreNotValidated :
    ∃ p q : Payload, (∀ i, i < 55 → p.getLsbD i = q.getLsbD i) ∧ p ≠ 0#64 ∧ q ≠ 0#64 ∧ p ≠ q :=
  ⟨0xFF818000CAA974C8#64, 0x7F818000CAA974C8#64, by decide +kernel, by decide, by decide, by decide⟩

theorem witness_DataDetermineTheValidPayload :
    (∃ p q : Payload, validate p = .valid ∧ validate q = .valid ∧ headerField p = headerField q ∧
      ∀ r, r < 10 → dataNibble p r = dataNibble q r) ∧
    ∃ (h : BitVec 9) (d : Nat → BitVec 4), h = 0#9 ∧ (h ≠ 0#9 ∨ ∃ r, r < 10 ∧ d r ≠ 0#4) :=
  ⟨⟨0xFF818000CAA974C8#64, 0xFF818000CAA974C8#64, by decide +kernel, by decide +kernel, rfl, fun _ _ => rfl⟩,
    0#9, fun _ => 1#4, rfl, .inr ⟨0, by decide⟩⟩

theorem witness_ProjectPacksTheNibblesOfRowsTwoToNine : ∃ j : Nat, j < 8 := ⟨7, by decide⟩

theorem witness_PollBelowThresholdOnlyReturnsZero : ∃ s : State, s.cursor < s.cfg.cap - 10 ∧ s.cursor = 245 :=
  ⟨filled [] 245, by decide, rfl⟩

/-- The smallest capacity at its threshold, the reference frame from index 0. -/
def smallFull : State :=
  { State.resetWith { cap := 138, tickW := 12 } with raw := Memory.ofBits 0 frameBits, cursor := 128 }

theorem smallFull_accepts : FirstAccepted smallFull.raw smallFull.cursor 0 :=
  ⟨⟨by decide +kernel, by decide, by decide +kernel⟩, fun o h => absurd h (Nat.not_lt_zero o)⟩

theorem witness_SearchFollowsTheSkipLoop :
    ∃ (raw : Memory) (cap cursor : Nat) (o : Nat) (p : Payload),
      locate raw cap 6 = .found o ∧ extract raw cursor o = .payload p ∧ validate p = .valid :=
  ⟨Memory.ofBits 0 p2Bits, 256, 246, 108, 0xFF818000CAA974C8#64, by decide +kernel, by decide +kernel,
    by decide +kernel⟩

theorem witness_PollRecordsTheFirstValidCandidate :
    ∃ (s : State) (o : Nat), s.cursor ≤ s.cfg.cap ∧ s.cfg.cap - 10 ≤ s.cursor ∧ FirstAccepted s.raw s.cursor o :=
  ⟨smallFull, 0, by decide, by decide, smallFull_accepts⟩

/-- An empty buffer accepts no candidate. -/
theorem nothing_accepted (cursor o : Nat) : ¬ Accepts [] cursor o := fun h => by
  have := (headerAt_iff [] o).1 h.1 1 (by decide)
  rw [hdr_getLsbD 1 (by decide)] at this
  simp [Memory.read] at this

theorem witness_ExhaustedPollKeepsTheRecord :
    ∃ s : State, s.cursor ≤ s.cfg.cap ∧ s.cfg.cap - 10 ≤ s.cursor ∧ (∀ o, ¬ Accepts s.raw s.cursor o) :=
  ⟨filled [] 246, by decide, by decide, nothing_accepted 246⟩

theorem witness_ReadyMeansThisPollDecoded : ∃ s : State, s.cursor ≤ s.cfg.cap ∧ s.cursor = s.cfg.cap :=
  ⟨filled [] 256, by decide, rfl⟩

theorem witness_SplitPollComesToTheAtomicPoll : ∃ s t : State, exec .poll s = .next t ∧ s.cfg.cap - 10 ≤ s.cursor :=
  ⟨smallFull, _, rfl, by decide⟩

theorem witness_EdgesInsideASplitPollLeaveNoTrace :
    ∃ (s : State) (es : List SplitEvent), (splitRun es (splitEnter s)).phase ≠ none ∧ es.length = 3 :=
  ⟨filled [] 246, [.edge true 1400, .advance, .edge false 3000], by decide +kernel, rfl⟩

theorem witness_ReadIdReturnsTheStoredIdentifier :
    (∃ s t : State, exec .clear s = .next t ∧ s.tagId ≠ 0#32) ∧
    (∃ s : State, RecordOk s.tagId s.tagRaw ∧ s.tagRaw ≠ 0#64 ∧
      ∀ r, 2 ≤ r → r < 10 → dataNibble s.tagRaw r = 0#4) ∧
    ∃ s t : State, exec .poll s = .next t ∧ t.result = .ready false :=
  ⟨⟨stored, _, rfl, by decide⟩,
    ⟨{ State.reset with tagRaw := 0xFF80000000000000#64 },
      ⟨by decide +kernel, .inr ⟨by decide +kernel, by decide⟩⟩, by decide, fun r _ h =>
        (by decide +kernel : ∀ r, r < 10 → dataNibble 0xFF80000000000000#64 r = 0#4) r h⟩,
    stored, _, rfl, by decide +kernel⟩

theorem stored_recordOk : RecordOk stored.tagId stored.tagRaw :=
  ⟨by decide +kernel, .inr ⟨by decide +kernel, by decide⟩⟩

theorem witness_ReadRawReturnsTheStoredPayload :
    ∃ s : State, RecordOk s.tagId s.tagRaw ∧ s.tagRaw ≠ 0#64 := ⟨stored, stored_recordOk, by decide⟩

theorem witness_ClearEmptiesOnlyTheRecord : ∃ s t : State, exec .clear s = .next t ∧ t.tagRaw ≠ s.tagRaw :=
  ⟨stored, _, rfl, by decide⟩

/-- Every element is written by the operations the statement names. -/
theorem witness_OnlyTheNamedOperationsWriteAnElement :
    (∃ s t : State, exec (.edge true 1400) s = .next t ∧ t.cursor ≠ s.cursor) ∧
    (∃ s t : State, exec .poll s = .next t ∧ t.raw ≠ s.raw ∧ t.tagRaw ≠ s.tagRaw) ∧
    (∃ s t : State, exec .poll s = .next t ∧ t.samplerEn ≠ s.samplerEn) ∧
    ∃ s t : State, exec .clear s = .next t ∧ t.tagId ≠ s.tagId :=
  ⟨⟨State.reset, _, rfl, by decide⟩, ⟨smallFull, _, rfl, by decide +kernel, by decide +kernel⟩,
    ⟨{ filled [] 246 with samplerEn := false }, _, rfl, by decide +kernel⟩, stored, _, rfl, by decide⟩

theorem witness_PopulatedBitsStayUntilPoll :
    ∃ (i : Instr) (s t : State), s.raw.wf ∧ i ≠ .poll ∧ exec i s = .next t ∧ s.cursor < t.cursor :=
  ⟨.edge true 3000, filled [true] 1, _, by decide, by decide, rfl, by decide⟩

theorem witness_ReadsReturnAMatchingPair :
    ∃ (s : State) (between : List Instr), RecordOk s.tagId s.tagRaw ∧ .poll ∉ between ∧ .clear ∉ between ∧
      between.length = 2 :=
  ⟨stored, [.edge true 1400, .readRaw], stored_recordOk, by decide, by decide, rfl⟩

/-- Both alternatives of the hypothesis, the second at its boundary for each number of appended bits: a long, a short and
a noise edge, and an edge while the sampler is disabled. -/
theorem witness_EdgeCommutesWithReadsAndClear :
    (∃ i : Instr, i.agent = .foreground ∧ i ≠ .poll) ∧ Instr.poll.agent = .foreground ∧
    ∀ p ∈ [(filled [] 243, 3000), (filled [] 244, 1400), (filled [] 245, 500),
        ({ filled [] 245 with samplerEn := false }, 3000)],
      p.1.cursor + (if p.1.samplerEn then
        min (if 900 < p.2 ∧ p.2 < 1900 then 1 else if 2000 < p.2 ∧ p.2 < 4000 then 2 else 0)
          (p.1.cfg.cap - p.1.cursor) else 0) = 245 ∧ 245 < p.1.cfg.cap - 10 :=
  ⟨⟨.clear, by decide⟩, by decide, by decide⟩

theorem witness_ResetMeetsTheInvariants : ∃ c : Config, c.wf ∧ c.cap = 138 ∧ c.tickW = 12 :=
  ⟨{ cap := 138, tickW := 12 }, by decide⟩

/-- `smallFull` meets the invariants. -/
theorem smallFull_inv : Inv smallFull where
  params := by decide
  canonical := by decide +kernel
  bounded := by decide
  clean := fun i h => by
    rw [smallFull, Memory.read_ofBits, List.getD_eq_default _ _ h, Bool.and_false]
  record := ⟨by decide, .inl rfl⟩
  sampling := rfl
  idle := rfl

theorem witness_EveryStepKeepsTheInvariants :
    ∃ s t : State, Inv s ∧ step s = .next t ∧ t.result = .ready true :=
  ⟨smallFull.issue (encode 12 .poll), _,
    { params := smallFull_inv.params, canonical := smallFull_inv.canonical, bounded := smallFull_inv.bounded,
      clean := smallFull_inv.clean, record := smallFull_inv.record, sampling := rfl, idle := rfl },
    rfl, by decide +kernel⟩

theorem witness_ReachableStatesMeetTheInvariants :
    ∃ (c : Config) (s : State), c.wf ∧ Reachable c s ∧ s.cursor = 2 :=
  ⟨Config.standard, _, by decide, .step _ _ (.issue _ 0x10BB8 .reset) rfl, rfl⟩

theorem witness_ClearAndAFailedDecodeEqualReset :
    ∃ s : State, s.cursor ≤ s.cfg.cap ∧ s.cfg.cap - 10 ≤ s.cursor ∧ (∀ o, ¬ Accepts s.raw s.cursor o) ∧
      s.tagId ≠ 0#32 :=
  ⟨{ stored with cursor := 246 }, by decide, by decide, nothing_accepted 246, by decide⟩

theorem witness_RunsAppendTheirBits :
    ∃ (bits : List Bit) (ops : List Instr) (s : State), runs bits = some ops ∧ s.samplerEn = true ∧ s.raw.wf ∧
      s.cursor + bits.length ≤ s.cfg.cap ∧ bits.length = 7 :=
  ⟨bitsOf 7 0b0100110, _, filled [] 249, rfl, rfl, by decide, by decide, by decide⟩

theorem witness_RawFrameExtractsBack :
    ∃ (raw : Memory) (o : Nat) (p : Payload), (∀ k, k < 128 → raw.read (o + k) = (rawFrame p).getD k false) ∧
      headerField p = 0b111111111#9 :=
  ⟨Memory.ofBits 0 frameBits, 0, 0xFF818000CAA974C8#64, fun k _ => by
    rw [Memory.read_ofBits, test_raw_frame]
    simp, by decide⟩

/-- No candidate of P2 below its frame at 108 succeeds, the six false headers among them. -/
theorem p2_nothing_accepted_below :
    ∀ o, o < 108 → ¬ (headerAt (Memory.ofBits 0 p2Bits) o = true ∧ o + Config.rawPerFrame ≤ 246 ∧
      validate (payloadAt (Memory.ofBits 0 p2Bits) o) = .valid) := by decide +kernel

theorem p2Bits_length : p2Bits.length = 246 ∧ (p2Bits.take 108).length = 108 := by decide +kernel

/-- The input of program P2: 108 bits with six false headers before the frame, 10 bits after it. -/
theorem witness_EdgesOfAFrameDecodeToItsIdentifier :
    ∃ (c : Config) (v0 v1 : BitVec 4) (id : TagId) (before after bits : List Bit) (ops : List Instr), c.wf ∧
      bits = before ++ rawFrame (build v0 v1 id) ++ after ∧ runs bits = some ops ∧ c.cap - 10 ≤ bits.length ∧
      bits.length ≤ c.cap ∧ (∀ o, o < before.length → ¬ Accepts (Memory.ofBits 0 bits) bits.length o) ∧
      headerAt (Memory.ofBits 0 bits) 15 = true ∧ 15 < before.length :=
  ⟨Config.standard, 0x0#4, 0x6#4, 0x001259E3#32, p2Bits.take 108, p2Bits.drop 236, p2Bits, (runs p2Bits).getD [],
    by decide, by decide +kernel, by decide +kernel, by decide +kernel, by decide +kernel, fun o h => by
      rw [p2Bits_length.2] at h
      rw [p2Bits_length.1]
      exact p2_nothing_accepted_below o h, by decide +kernel, by decide +kernel⟩

end Sys2Proof.Tests
end

section
/-! The Edge Sampler at capacity and below it (40_edge_sampler.md R73, R75). -/

namespace Sys2Proof.Machine

/-! ## Decoding POLL: when it starts, what it leaves of the buffer -/

/-- A full buffer is past the fill level of R121. -/
theorem threshold_le_cap (c : Config) : c.threshold ≤ c.cap := Nat.sub_le _ _

theorem exec_poll_of_threshold_le (s : State) (h : s.cfg.threshold ≤ s.cursor) :
    exec .poll s = .next (pollDecode s) := if_neg (Nat.not_lt.2 h)

@[simp] theorem pollDecode_cursor (s : State) : (pollDecode s).cursor = 0 := rfl

@[simp] theorem pollDecode_raw (s : State) : (pollDecode s).raw = Memory.cleared := rfl

/-! ## EDGE -/

theorem exec_edge_of_full (level : Bit) (ticks : Nat) (s : State) (h : s.cfg.cap ≤ s.cursor) :
    exec (.edge level ticks) s = .next s := by
  simp only [exec, execEdge, appendTimes_of_full _ _ _ h, ite_self]

/-- On a full buffer every operation but POLL keeps the bits, the fill level and the capacity. -/
theorem exec_keeps_full_buffer {i : Instr} {s t : State} (hfull : s.cfg.cap ≤ s.cursor) (hi : i ≠ .poll)
    (h : exec i s = .next t) : t.cfg = s.cfg ∧ t.cursor = s.cursor ∧ t.raw = s.raw := by
  obtain ⟨level, ticks, rfl, -⟩ | ⟨rfl, -⟩ | ⟨rfl, -⟩ | ⟨-, rfl⟩ | ⟨-, rfl⟩ | ⟨-, rfl⟩ := exec_cases h
  · obtain rfl : s = t := by simpa [exec_edge_of_full level ticks s hfull] using h
    simp
  · exact absurd rfl hi
  · exact absurd rfl hi
  all_goals simp

/-! ## The obligations -/

/-- Settles O11: a full buffer has no room for EDGE, no other operation but POLL writes the buffer, and a full buffer is
past the threshold, so POLL decodes and clears. -/
theorem fullBufferIgnoresEdgesUntilPoll : Obligations.FullBufferIgnoresEdgesUntilPoll := by
  intro s hfull
  refine ⟨fun level ticks => exec_edge_of_full level ticks s hfull.ge, fun i t hi h => ?_,
    pollDecode s, exec_poll_of_threshold_le s ?_, pollDecode_cursor s, pollDecode_raw s⟩
  · obtain ⟨hcfg, hcursor, hraw⟩ := exec_keeps_full_buffer hfull.ge hi h
    exact ⟨by rw [hcursor, hcfg, hfull], hraw⟩
  · exact hfull ▸ threshold_le_cap s.cfg

/-- Settles O8: below capacity by the read-after-write rule of APPEND, at capacity because APPEND has no room. -/
theorem appendWritesAtTheCursorOrNothing : Obligations.AppendWritesAtTheCursorOrNothing := by
  intro v s hwf
  refine ⟨fun hlt => ⟨by rw [append_of_lt v s hlt], fun a => ?_, append_frame v s⟩, append_of_le v s⟩
  simp only [append_read v s hwf, hlt, and_true]

end Sys2Proof.Machine
end

section
/-! PROOFS. The statements about the Payload Extractor (42_payload_extractor.md). -/

namespace Sys2Proof.Machine

/-! ## The pair code and the extent check, said once -/

/-- Of the four pairs only `(0,1)` carries a one (30_encoding.md R52). -/
theorem pairBit_eq_true (a b : Bit) : pairBit a b = true ↔ a = false ∧ b = true := by
  simp [pairBit]

/-- R91: inside the populated extent EXTRACT answers with the payload at the offset. -/
theorem extract_of_le (raw : Memory) (cursor o : Nat) (h : o + Config.rawPerFrame ≤ cursor) :
    extract raw cursor o = .payload (payloadAt raw o) :=
  if_neg (Nat.not_lt.mpr h)

/-- R92: the `k`-th pair from the offset decides payload bit `63 - k`. -/
theorem payloadAt_getLsbD_pair (raw : Memory) (o k : Nat) (hk : k < 64) :
    (payloadAt raw o).getLsbD (63 - k) = pairBit (raw.read (o + 2 * k)) (raw.read (o + 2 * k + 1)) := by
  have hbit : 63 - k < 64 := by omega
  have hpair : 63 - (63 - k) = k := by omega
  rw [payloadAt_getLsbD, hpair, decide_eq_true hbit, Bool.true_and]

/-! ## The obligation -/

/-- Settles O21: inside the extent the payload is `payloadAt`, whose bit `63 - k` is the bit of the `k`-th pair. -/
theorem extractDecodesPairsMostSignificantFirst : Obligations.ExtractDecodesPairsMostSignificantFirst := by
  intro raw cursor o h
  refine ⟨payloadAt raw o, extract_of_le raw cursor o h, fun k hk => ?_⟩
  rw [payloadAt_getLsbD_pair raw o k hk, pairBit_eq_true]

end Sys2Proof.Machine
end

section
/-! PROOFS. The statements about the Payload Validator (43_parity_validator.md). -/

namespace Sys2Proof.Machine

/-! ## The checks on their own, said once -/

/-- R103: check 3 on a row, its five bits written out. -/
theorem rowOk_eq_true (p : Payload) (r : Nat) :
    rowOk p r = true ↔
      (p.getLsbD (50 - 5 * r + 4) ^^ p.getLsbD (50 - 5 * r + 3) ^^ p.getLsbD (50 - 5 * r + 2) ^^
        p.getLsbD (50 - 5 * r + 1)) = p.getLsbD (50 - 5 * r) :=
  beq_iff_eq

/-- Every row of the zero word passes check 3. -/
theorem rowOk_zero (r : Nat) : rowOk 0#64 r = true := by
  simp [rowOk_eq_true]

/-- Every column of the zero word passes check 4. -/
theorem colOk_zero (c : Nat) : colOk 0#64 c = true := by
  simp [colOk, colXor_eq, colParityBit]

/-- R101: the zero word is invalid. -/
theorem validate_zero : validate 0#64 = .invalid :=
  if_pos rfl

/-- R102: a payload with the stop bit set is invalid. -/
theorem validate_of_stopBit {p : Payload} (h : stopBit p = true) : validate p = .invalid := by
  rw [validate_eq_invalid, Ne, validate_eq_valid]
  rintro ⟨-, hstop, -, -⟩
  simp [h] at hstop

/-- R103: a payload with a row that fails check 3 is invalid. -/
theorem validate_of_not_rowOk {p : Payload} {r : Nat} (hr : r < 10) (h : ¬ rowOk p r = true) :
    validate p = .invalid := by
  rw [validate_eq_invalid, Ne, validate_eq_valid]
  rintro ⟨-, -, hrows, -⟩
  exact h (hrows r hr)

/-! ## The obligation -/

/-- Settles O23: `validate` answers `valid` only when every check passes, and all bits of the zero word are 0, so it
fails check 1 alone. -/
theorem zeroStopAndRowChecksReject : Obligations.ZeroStopAndRowChecksReject := by
  refine ⟨⟨validate_zero, BitVec.getLsbD_zero, fun r _ => rowOk_zero r, fun c _ => colOk_zero c⟩,
    fun p hstop => validate_of_stopBit hstop, fun p r hr hrow => validate_of_not_rowOk hr ?_⟩
  rwa [rowOk_eq_true]

end Sys2Proof.Machine
end

section
/-! PROOFS. The statements about the Decode Orchestrator (45_orchestrator_and_host_ops.md). -/

namespace Sys2Proof.Machine

/-! ## How many ordinals LOCATE can find -/

/-- R86: the second bit of a header is 1 and the first bit of a header is 0, so no two headers are adjacent. -/
theorem headerAt_succ_eq_false {raw : Memory} {o : Nat} (h : headerAt raw o = true) :
    headerAt raw (o + 1) = false := by
  rw [Bool.eq_false_iff, Ne, headerAt_iff]
  intro hnext
  have hone : raw.read (o + 1) = true := (headerAt_iff raw o).1 h 1 (by decide)
  have hzero : raw.read (o + 1) = false := hnext 0 (by decide)
  simp [hone] at hzero

/-- R86: of two neighbouring offsets at most one holds a header. -/
theorem two_mul_matchesBelow_le (raw : Memory) (n : Nat) : 2 * matchesBelow raw n ≤ n + 1 := by
  induction n using Nat.twoStepInduction with
  | zero => simp [matchesBelow]
  | one =>
    have hcount : matchesBelow raw 1 ≤ 1 := List.countP_le_length
    omega
  | more n ih _ =>
    rw [matchesBelow_succ, matchesBelow_succ]
    by_cases h : headerAt raw n = true
    · simp only [h, headerAt_succ_eq_false h, if_true, Bool.false_eq_true, if_false]
      omega
    · simp only [h, Bool.false_eq_true, if_false]
      split <;> omega

/-- R86: a scan of the whole buffer passes at most `maxMatches` headers. -/
theorem matchesBelow_scanCount_le (raw : Memory) (cap : Nat) :
    matchesBelow raw (scanCount cap) ≤ maxMatches cap := by
  rcases Nat.lt_or_ge cap Config.hdrLen with hsmall | hlarge
  · have hempty : scanCount cap = 0 := Nat.sub_eq_zero_of_le hsmall
    simp [hempty, matchesBelow]
  · have hhalf := two_mul_matchesBelow_le raw (scanCount cap)
    simp only [scanCount, maxMatches, Config.hdrLen] at hhalf hlarge ⊢
    omega

/-- R85: LOCATE finds nothing exactly when the buffer holds no more than `skip` headers. -/
theorem locate_eq_notFound (raw : Memory) (cap skip : Nat) :
    locate raw cap skip = .notFound ↔ matchesBelow raw (scanCount cap) ≤ skip := by
  rw [locate, locateFrom_notFound raw skip _ 0 0 (Nat.zero_le _), Nat.zero_add, headersFrom_zero_eq]

/-- LOCATE finds an ordinal exactly when the buffer holds more than `skip` headers. -/
theorem exists_locate_eq_found (raw : Memory) (cap skip : Nat) :
    (∃ o, locate raw cap skip = .found o) ↔ skip < matchesBelow raw (scanCount cap) := by
  rw [← Nat.not_le, ← locate_eq_notFound]
  cases locate raw cap skip <;> simp

/-! ## One candidate, by the outcomes of EXTRACT and VALIDATE (R124) -/

theorem candidate_eq_some_iff_outcomes (raw : Memory) (cursor o : Nat) (p : Payload) :
    candidate raw cursor o = some p ↔ extract raw cursor o = .payload p ∧ validate p = .valid := by
  unfold candidate
  cases extract raw cursor o with
  | outOfRange => simp
  | payload q =>
    simp only [Extracted.payload.injEq]
    cases hq : validate q with
    | valid => exact ⟨by rintro ⟨⟩; exact ⟨rfl, hq⟩, by rintro ⟨rfl, -⟩; rfl⟩
    | invalid => exact ⟨by rintro ⟨⟩, by rintro ⟨rfl, hp⟩; simp [hq] at hp⟩

theorem candidate_eq_none_iff_outcomes (raw : Memory) (cursor o : Nat) :
    candidate raw cursor o = none ↔
      extract raw cursor o = .outOfRange ∨ ∃ q, extract raw cursor o = .payload q ∧ validate q = .invalid := by
  unfold candidate
  cases extract raw cursor o with
  | outOfRange => simp
  | payload q => cases hq : validate q <;> simp [hq]

/-! ## The search -/

/-- R123: the search gives what the first successful round gives; its fuel reaches every ordinal LOCATE can find. -/
theorem search_eq_some (raw : Memory) (cap cursor : Nat) (p : Payload) :
    search raw cap cursor = some p ↔
      ∃ k, attempt raw cap cursor k = .success p ∧ ∀ k', k' < k → attempt raw cap cursor k' = .failed := by
  simp only [search, decodeLoop_eq_some, Nat.zero_add]
  refine exists_congr fun k => ⟨And.right, fun h => ⟨?_, h⟩⟩
  obtain ⟨o, hfound, -⟩ := (attempt_eq_success raw cap cursor k p).1 h.1
  have hk : k < matchesBelow raw (scanCount cap) := (exists_locate_eq_found raw cap k).1 ⟨o, hfound⟩
  exact Nat.lt_succ_of_lt (hk.trans_le (matchesBelow_scanCount_le raw cap))

/-- Below an ordinal that LOCATE finds, a round that does not succeed has a candidate and fails. -/
theorem attempt_eq_failed_of_lt {raw : Memory} {cap cursor k k' o : Nat} (hfound : locate raw cap k = .found o)
    (hlt : k' < k) (hfail : ∀ p, attempt raw cap cursor k' ≠ .success p) :
    attempt raw cap cursor k' = .failed := by
  have hk : k < matchesBelow raw (scanCount cap) := (exists_locate_eq_found raw cap k).1 ⟨o, hfound⟩
  cases hround : attempt raw cap cursor k' with
  | exhausted =>
    rw [attempt_eq_exhausted, locate_eq_notFound] at hround
    omega
  | failed => rfl
  | success p => exact absurd hround (hfail p)

/-- The search gives a payload as soon as some ordinal's round succeeds, be it not the first that does. -/
theorem search_ne_none_of_success {raw : Memory} {cap cursor : Nat}
    (h : ∃ k p, attempt raw cap cursor k = .success p) : search raw cap cursor ≠ none := by
  classical
  obtain ⟨p, hp⟩ := Nat.find_spec h
  obtain ⟨o, hfound, -⟩ := (attempt_eq_success raw cap cursor _ p).1 hp
  have hsearch : search raw cap cursor = some p := (search_eq_some raw cap cursor p).2
    ⟨Nat.find h, hp, fun k' hlt =>
      attempt_eq_failed_of_lt hfound hlt fun q hq => Nat.find_min h hlt ⟨q, hq⟩⟩
  simp [hsearch]

/-- R123: the search gives nothing exactly when every candidate LOCATE finds fails. -/
theorem search_eq_none (raw : Memory) (cap cursor : Nat) :
    search raw cap cursor = none ↔ ∀ k o, locate raw cap k = .found o → candidate raw cursor o = none := by
  constructor
  · intro hnone k o hfound
    by_contra hcand
    obtain ⟨p, hp⟩ := Option.ne_none_iff_exists'.1 hcand
    exact search_ne_none_of_success
      ⟨k, p, (attempt_eq_success raw cap cursor k p).2 ⟨o, hfound, hp⟩⟩ hnone
  · intro hfail
    rw [Option.eq_none_iff_forall_ne_some]
    intro p hp
    obtain ⟨k, hk, -⟩ := (search_eq_some raw cap cursor p).1 hp
    obtain ⟨o, hfound, hcand⟩ := (attempt_eq_success raw cap cursor k p).1 hk
    simp [hfail k o hfound] at hcand

/-! ## The obligation -/

/-- Settles O33: the loop's first success is the search's, no ordinal past the fuel is found, and the ordinals found have
no gaps, so a search without a payload has tried every one. -/
theorem searchFollowsTheSkipLoop : Obligations.SearchFollowsTheSkipLoop := by
  intro raw cap cursor
  constructor
  · intro p
    simp only [search_eq_some, attempt_eq_success, attempt_eq_failed, candidate_eq_some_iff_outcomes,
      candidate_eq_none_iff_outcomes]
  · simp only [search_eq_none, candidate_eq_none_iff_outcomes]

end Sys2Proof.Machine
end

section
/-! PROOFS. The statements about command words (30_encoding.md section 6). -/

namespace Sys2Proof

/-! ## The fields of a command word -/

/-- The operands of a well-formed operation fit the `TICK_W + 1` bits below `op`. -/
theorem Instr.operandField_lt {tickW : Nat} {i : Instr} (h : i.wf tickW = true) :
    i.operandField tickW < 2 ^ (tickW + 1) := by
  cases i with
  | edge level ticks =>
    have hticks : ticks < 2 ^ tickW := by simpa [Instr.wf] using h
    have hlevel := Nat.mul_le_mul_right (2 ^ tickW) (Bool.toNat_le level)
    simp only [Instr.operandField, Nat.pow_succ]
    omega
  | _ => exact Nat.two_pow_pos _

/-- The field `op` of a command word is the operation code. -/
theorem opField_encode {tickW : Nat} {i : Instr} (h : i.wf tickW = true) :
    opField tickW (encode tickW i) = i.opcode := by
  rw [opField, encode, Nat.add_comm, Nat.add_mul_div_right _ _ (Nat.two_pow_pos _),
    Nat.div_eq_of_lt (Instr.operandField_lt h), Nat.zero_add]

/-- What lies below `op` in a command word is the operand field. -/
theorem encode_mod {tickW : Nat} {i : Instr} (h : i.wf tickW = true) :
    encode tickW i % 2 ^ (tickW + 1) = i.operandField tickW :=
  Nat.mul_add_mod_of_lt (Instr.operandField_lt h)

/-- The operand field is `level` above `ticks`. -/
theorem level_ticks_eq_mod (tickW w : Nat) :
    (levelField tickW w).toNat * 2 ^ tickW + ticksField tickW w = w % 2 ^ (tickW + 1) := by
  have hlevel : (levelField tickW w).toNat = w / 2 ^ tickW % 2 := by
    rcases Nat.mod_two_eq_zero_or_one (w / 2 ^ tickW) with h | h <;> simp [levelField, h]
  rw [hlevel, ticksField, Nat.pow_succ, Nat.mod_mul, Nat.mul_comm, Nat.add_comm]

theorem levelField_edge {tickW ticks : Nat} (level : Bit) (h : ticks < 2 ^ tickW) :
    levelField tickW (encode tickW (.edge level ticks)) = level := by
  have hdiv : encode tickW (.edge level ticks) / 2 ^ tickW = level.toNat := by
    simp only [encode, Instr.opcode, Instr.operandField, Nat.zero_mul, Nat.zero_add]
    rw [Nat.add_comm, Nat.add_mul_div_right _ _ (Nat.two_pow_pos _), Nat.div_eq_of_lt h, Nat.zero_add]
  rw [levelField, hdiv]
  cases level <;> rfl

theorem ticksField_edge {tickW ticks : Nat} (level : Bit) (h : ticks < 2 ^ tickW) :
    ticksField tickW (encode tickW (.edge level ticks)) = ticks := by
  simp only [ticksField, encode, Instr.opcode, Instr.operandField, Nat.zero_mul, Nat.zero_add]
  exact Nat.mul_add_mod_of_lt h

/-- A word with an operation's code and operand field is its command word. -/
theorem encode_eq_of_fields {tickW w : Nat} {i : Instr} (hop : opField tickW w = i.opcode)
    (hoperands : w % 2 ^ (tickW + 1) = i.operandField tickW) : encode tickW i = w := by
  rw [encode, ← hop, ← hoperands, opField, Nat.mul_comm, Nat.div_add_mod]

/-! ## Decode and encode are inverse -/

/-- Settles O1: the fields of the command word are the operation code and the operands, and the decoder reads them
off. -/
theorem decodeOfEncodeIsTheOperation : Obligations.DecodeOfEncodeIsTheOperation := by
  intro tickW i h
  have hop := opField_encode h
  have hoperands := encode_mod h
  rw [decode_eq_ok]
  cases i with
  | edge level ticks =>
    have hticks : ticks < 2 ^ tickW := by simpa [Instr.wf] using h
    exact .inl ⟨hop, by rw [levelField_edge level hticks, ticksField_edge level hticks]⟩
  | poll => exact .inr ⟨hoperands, .inl ⟨hop, rfl⟩⟩
  | readId => exact .inr ⟨hoperands, .inr (.inl ⟨hop, rfl⟩)⟩
  | readRaw => exact .inr ⟨hoperands, .inr (.inr (.inl ⟨hop, rfl⟩))⟩
  | clear => exact .inr ⟨hoperands, .inr (.inr (.inr ⟨hop, rfl⟩))⟩

/-- Settles O2: a word that decodes has the operation's code and operand field, and these two make up the word. -/
theorem decodedWordIsItsOwnEncoding : Obligations.DecodedWordIsItsOwnEncoding := by
  intro tickW w i h
  obtain ⟨hop, rfl⟩ | ⟨hoperands, hrow⟩ := (decode_eq_ok tickW w i).1 h
  · exact ⟨decide_eq_true (Nat.mod_lt _ (Nat.two_pow_pos _)),
      encode_eq_of_fields hop (level_ticks_eq_mod tickW w).symm⟩
  · obtain ⟨hop, rfl⟩ | ⟨hop, rfl⟩ | ⟨hop, rfl⟩ | ⟨hop, rfl⟩ := hrow <;>
      exact ⟨rfl, encode_eq_of_fields hop hoperands⟩

/-- The words that decode to an operation: its command word, if it has one. -/
theorem decode_eq_ok_iff_encode (tickW w : Nat) (i : Instr) :
    decode tickW w = .ok i ↔ i.wf tickW = true ∧ encode tickW i = w :=
  ⟨decodedWordIsItsOwnEncoding tickW w i, fun ⟨hwf, hw⟩ => hw ▸ decodeOfEncodeIsTheOperation tickW i hwf⟩

/-! ## The table of R62 -/

/-- EDGE's row fixes the three bits of `op` to 0. -/
theorem and_edgeMask_eq_zero (w : BitVec 20) : w &&& 0xE0000#20 = 0#20 ↔ opField 16 w.toNat = 0 := by
  have hmask : ∀ i, i < 20 → (0xE0000#20).getLsbD i = decide (17 ≤ i) := by decide
  have hfield : opField 16 w.toNat = 0 ↔ w.toNat < 2 ^ 17 := by rw [opField]; omega
  rw [hfield]
  constructor
  · intro h
    refine Nat.lt_pow_two_of_testBit _ fun i hi => ?_
    rcases Nat.lt_or_ge i 20 with hlt | hge
    · have hbit : (w &&& 0xE0000#20).getLsbD i = false := by simp [h]
      rw [BitVec.getLsbD_and, hmask i hlt, decide_eq_true hi, Bool.and_true] at hbit
      exact hbit
    · exact BitVec.getLsbD_of_ge w i hge
  · intro h
    refine BitVec.eq_of_getLsbD_eq fun i hi => ?_
    rw [BitVec.getLsbD_and, hmask i hi, BitVec.getLsbD_zero]
    by_cases hop : 17 ≤ i
    · have hbit : w.getLsbD i = false :=
        Nat.testBit_lt_two_pow (h.trans_le (Nat.pow_le_pow_right (by decide) hop))
      simp [hbit]
    · simp [hop]

/-- A word decodes to an EDGE exactly when its field `op` is 0. -/
theorem exists_decode_edge (tickW w : Nat) :
    (∃ i, decode tickW w = .ok i ∧ i.mnemonic = "EDGE") ↔ opField tickW w = 0 := by
  constructor
  · rintro ⟨i, hi, hname⟩
    cases i with
    | edge level ticks => exact (by simpa [decode_eq_ok] using hi : opField tickW w = 0 ∧ _).1
    | _ => simp [Instr.mnemonic] at hname
  · exact fun hop => ⟨_, (decode_eq_ok ..).2 (.inl ⟨hop, rfl⟩), rfl⟩

/-- A row that fixes all 20 bits matches one word, and an operation that alone has the row's mnemonic, and whose command
word it is, is what that word alone decodes to. -/
theorem and_fullMask_eq_iff_decode {i : Instr} {m : BitVec 20} (hwf : i.wf 16 = true) (hm : encode 16 i = m.toNat)
    (hname : ∀ j : Instr, j.mnemonic = i.mnemonic → j = i) (w : BitVec 20) :
    w &&& 0xFFFFF#20 = m ↔ ∃ j, decode 16 w.toNat = .ok j ∧ j.mnemonic = i.mnemonic := by
  have hall : w &&& 0xFFFFF#20 = w := BitVec.and_allOnes
  rw [hall]
  constructor
  · rintro rfl
    exact ⟨i, (decode_eq_ok_iff_encode ..).2 ⟨hwf, hm⟩, rfl⟩
  · rintro ⟨j, hj, hji⟩
    rw [hname j hji, decode_eq_ok_iff_encode, hm] at hj
    exact (BitVec.eq_of_toNat_eq hj.2).symm

/-- Settles O3: EDGE's row fixes the field `op`, each other row its operation's one command word; the fields of EDGE are
bit 16 and the bits below it. -/
theorem tableRowsMatchExactlyTheirOperations : Obligations.TableRowsMatchExactlyTheirOperations := by
  refine ⟨fun w row hrow => ?_, fun w level ticks h => ?_⟩
  · simp only [opcodeTable, List.mem_cons, List.not_mem_nil, or_false] at hrow
    obtain rfl | rfl | rfl | rfl | rfl := hrow
    · exact (and_edgeMask_eq_zero w).trans (exists_decode_edge 16 w.toNat).symm
    · exact and_fullMask_eq_iff_decode (i := .poll) rfl rfl (fun j => by cases j <;> simp [Instr.mnemonic]) w
    · exact and_fullMask_eq_iff_decode (i := .readId) rfl rfl (fun j => by cases j <;> simp [Instr.mnemonic]) w
    · exact and_fullMask_eq_iff_decode (i := .readRaw) rfl rfl (fun j => by cases j <;> simp [Instr.mnemonic]) w
    · exact and_fullMask_eq_iff_decode (i := .clear) rfl rfl (fun j => by cases j <;> simp [Instr.mnemonic]) w
  · obtain ⟨-, rfl, rfl⟩ : opField 16 w.toNat = 0 ∧ level = levelField 16 w.toNat ∧
        ticks = ticksField 16 w.toNat := by
      simpa [decode_eq_ok] using h
    constructor
    · rw [levelField, BitVec.getLsbD, Nat.testBit_eq_decide_div_mod_eq, beq_eq_decide]
    · simp [ticksField, BitVec.extractLsb'_toNat]

/-- Settles O5, by running the decoder on each of the seven words. -/
theorem wordsOfTheTableDecode : Obligations.WordsOfTheTableDecode :=
  ⟨rfl, rfl, rfl, rfl, rfl, rfl, rfl⟩

/-! ## The words that decode to nothing -/

theorem exists_decode_ok (tickW w : Nat) :
    (∃ i, decode tickW w = .ok i) ↔
      opField tickW w = 0 ∨ (w % 2 ^ (tickW + 1) = 0 ∧ 1 ≤ opField tickW w ∧ opField tickW w ≤ 4) := by
  simp only [decode_eq_ok, exists_or, exists_and_left, exists_eq, and_true]
  omega

/-- A word decodes to no operation exactly when `op` is too large, or operand bits stand where there are no operands. -/
theorem exists_decode_error (tickW w : Nat) :
    (∃ why, decode tickW w = .error why) ↔
      5 ≤ opField tickW w ∨ (1 ≤ opField tickW w ∧ w % 2 ^ (tickW + 1) ≠ 0) := by
  have herror : (∃ why, decode tickW w = .error why) ↔ ¬ ∃ i, decode tickW w = .ok i := by
    cases decode tickW w <;> simp
  rw [herror, exists_decode_ok]
  omega

end Sys2Proof
end

section
/-! PROOFS. The statements about the step (20_memory.md section 5, 60_exceptions.md section 1). -/

namespace Sys2Proof.Machine

/-! ## The three outcomes of a step, and the one outcome of an operation -/

theorem step_of_idle {s : State} (h : s.pending = []) : step s = .next s := by
  rw [step, h]

theorem step_of_decode_ok {s : State} {w : Nat} {rest : List Nat} {i : Instr} (hp : s.pending = w :: rest)
    (hd : decode s.cfg.tickW w = .ok i) : step s = exec i { s with pending := rest } := by
  simp only [step, hp, hd]

theorem step_of_decode_error {s : State} {w : Nat} {rest : List Nat} {why : Reserved} (hp : s.pending = w :: rest)
    (hd : decode s.cfg.tickW w = .error why) : step s = .refused (.reserved why) := by
  simp only [step, hp, hd]

/-- Every operation answers a next state. -/
theorem exists_exec_eq_next (i : Instr) (s : State) : ∃ t, exec i s = .next t := by
  cases i with
  | edge level ticks =>
    simp only [exec, execEdge]
    split <;> exact ⟨_, rfl⟩
  | poll =>
    simp only [exec, execPoll]
    split <;> exact ⟨_, rfl⟩
  | _ => exact ⟨_, rfl⟩

/-- A step refuses exactly when the oldest command word decodes to no operation. -/
theorem step_eq_refused (s : State) (r : Refusal) :
    step s = .refused r ↔
      ∃ w rest why, s.pending = w :: rest ∧ decode s.cfg.tickW w = .error why ∧ r = .reserved why := by
  constructor
  · intro h
    cases hp : s.pending with
    | nil => simp [step_of_idle hp] at h
    | cons w rest =>
      cases hd : decode s.cfg.tickW w with
      | error why =>
        rw [step_of_decode_error hp hd] at h
        exact ⟨w, rest, why, rfl, hd, (Host.Outcome.refused.inj h).symm⟩
      | ok i =>
        obtain ⟨t, ht⟩ := exists_exec_eq_next i { s with pending := rest }
        simp [step_of_decode_ok hp hd, ht] at h
  · rintro ⟨w, rest, why, hp, hd, rfl⟩
    exact step_of_decode_error hp hd

/-! ## The obligations -/

/-- Settles O4: a step refuses the words that do not decode, and those are the reserved ones. -/
theorem stepRefusesExactlyTheReservedWords : Obligations.StepRefusesExactlyTheReservedWords := by
  intro s w rest hp op operands
  have hstep : (∃ why, step s = .refused (.reserved why)) ↔ ∃ why, decode s.cfg.tickW w = .error why := by
    simp [step_eq_refused, hp]
  exact hstep.trans (exists_decode_error s.cfg.tickW w)

/-- Settles O6: the two ways in which a step is not refused. -/
theorem stepRunsTheDecodedOperation : Obligations.StepRunsTheDecodedOperation :=
  ⟨fun _ _ _ _ => step_of_decode_ok, fun _ => step_of_idle⟩

/-- Settles O7: every operation answers a next state, and the type of faults is empty. -/
theorem everyOperationReturns : Obligations.EveryOperationReturns :=
  ⟨exists_exec_eq_next, fun _ f => f.rec, step_eq_refused⟩

end Sys2Proof.Machine
end

section
/-! PROOFS. The statements about EDGE (40_edge_sampler.md). -/

namespace Sys2Proof.Machine

/-! ## What an EDGE leaves, said once -/

/-- How many bits an EDGE appends: those of its interval for which there is room, none while the sampler is disabled. -/
def edgeBits (ticks : Nat) (s : State) : Nat := if s.samplerEn then room (classify ticks).bits s else 0

/-- The state after an EDGE. -/
def afterEdge (level : Bit) (ticks : Nat) (s : State) : State :=
  if s.samplerEn then appendTimes (classify ticks).bits level s else s

theorem exec_edge (level : Bit) (ticks : Nat) (s : State) :
    exec (.edge level ticks) s = .next (afterEdge level ticks s) := by
  simp only [exec, execEdge, afterEdge]
  split <;> rfl

/-- The bits of an interval, its windows written out (30_encoding.md R51). -/
theorem classify_bits (ticks : Nat) :
    (classify ticks).bits =
      if 900 < ticks ∧ ticks < 1900 then 1 else if 2000 < ticks ∧ ticks < 4000 then 2 else 0 := by
  rw [classify, apply_ite Interval.bits, apply_ite Interval.bits]
  rfl

theorem edgeBits_eq (ticks : Nat) (s : State) :
    edgeBits ticks s =
      if s.samplerEn then
        min (if 900 < ticks ∧ ticks < 1900 then 1 else if 2000 < ticks ∧ ticks < 4000 then 2 else 0)
          (s.cfg.cap - s.cursor)
      else 0 := by
  rw [edgeBits, room, classify_bits]

theorem edgeBits_le (ticks : Nat) (s : State) : edgeBits ticks s ≤ s.cfg.cap - s.cursor := by
  unfold edgeBits
  split
  · exact Nat.min_le_right _ _
  · exact Nat.zero_le _

theorem afterEdge_cursor (level : Bit) (ticks : Nat) (s : State) :
    (afterEdge level ticks s).cursor = s.cursor + edgeBits ticks s := by
  unfold afterEdge edgeBits
  split
  · exact appendTimes_cursor _ _ _
  · rfl

/-- An EDGE touches `raw` and `cursor` only. -/
theorem afterEdge_frame (level : Bit) (ticks : Nat) (s : State) :
    afterEdge level ticks s =
      { s with raw := (afterEdge level ticks s).raw, cursor := s.cursor + edgeBits ticks s } := by
  rw [← afterEdge_cursor level]
  unfold afterEdge
  split
  · exact appendTimes_frame _ _ _
  · rfl

@[simp] theorem afterEdge_cfg (level : Bit) (ticks : Nat) (s : State) : (afterEdge level ticks s).cfg = s.cfg := by
  rw [afterEdge_frame]

@[simp] theorem afterEdge_samplerEn (level : Bit) (ticks : Nat) (s : State) :
    (afterEdge level ticks s).samplerEn = s.samplerEn := by
  rw [afterEdge_frame]

@[simp] theorem afterEdge_orchState (level : Bit) (ticks : Nat) (s : State) :
    (afterEdge level ticks s).orchState = s.orchState := by
  rw [afterEdge_frame]

@[simp] theorem afterEdge_tagId (level : Bit) (ticks : Nat) (s : State) :
    (afterEdge level ticks s).tagId = s.tagId := by
  rw [afterEdge_frame]

@[simp] theorem afterEdge_tagRaw (level : Bit) (ticks : Nat) (s : State) :
    (afterEdge level ticks s).tagRaw = s.tagRaw := by
  rw [afterEdge_frame]

@[simp] theorem afterEdge_result (level : Bit) (ticks : Nat) (s : State) :
    (afterEdge level ticks s).result = s.result := by
  rw [afterEdge_frame]

@[simp] theorem afterEdge_pending (level : Bit) (ticks : Nat) (s : State) :
    (afterEdge level ticks s).pending = s.pending := by
  rw [afterEdge_frame]

theorem afterEdge_wf (level : Bit) (ticks : Nat) (s : State) (h : s.raw.wf) : (afterEdge level ticks s).raw.wf := by
  unfold afterEdge
  split
  · exact appendTimes_wf _ _ _ h
  · exact h

/-- The appended bits are the level, every other bit is as before. -/
theorem afterEdge_read (level : Bit) (ticks : Nat) (s : State) (h : s.raw.wf) (a : Nat) :
    (afterEdge level ticks s).raw.read a =
      if s.cursor ≤ a ∧ a < s.cursor + edgeBits ticks s then level else s.raw.read a := by
  unfold afterEdge edgeBits
  split
  · exact appendTimes_read _ _ _ h a
  · rw [if_neg (by omega)]

/-- While the sampler is disabled an EDGE changes nothing (R71). -/
theorem afterEdge_of_disabled (level : Bit) (ticks : Nat) {s : State} (h : s.samplerEn = false) :
    afterEdge level ticks s = s := by
  simp [afterEdge, h]

/-- An interval that appends no bit changes nothing. -/
theorem afterEdge_of_noise (level : Bit) {ticks : Nat} (h : (classify ticks).bits = 0) (s : State) :
    afterEdge level ticks s = s := by
  rw [afterEdge, h]
  exact ite_self s

/-! ## The obligations -/

/-- Settles O9: the frame and the read rule of EDGE, the number of appended bits written out. -/
theorem edgeAppendsWhatTheIntervalSays : Obligations.EdgeAppendsWhatTheIntervalSays := by
  intro s level ticks hwf want n
  have hn : edgeBits ticks s = n := edgeBits_eq ticks s
  refine ⟨(afterEdge level ticks s).raw, ?_, fun a => ?_⟩
  · rw [exec_edge, ← hn, ← afterEdge_frame]
  · rw [afterEdge_read level ticks s hwf, hn]

/-- Settles O10: the frame of EDGE. -/
theorem edgeNeverTouchesTheOrchestratorOrTheRecord : Obligations.EdgeNeverTouchesTheOrchestratorOrTheRecord := by
  intro s level ticks
  refine ⟨afterEdge level ticks s, exec_edge level ticks s, ?_⟩
  simp

/-- Settles O12: outside both windows the interval is noise. -/
theorem noiseIntervalChangesNothing : Obligations.NoiseIntervalChangesNothing := by
  intro s level ticks hnoise
  have hbits : (classify ticks).bits = 0 := by
    rw [classify_bits, if_neg (by omega), if_neg (by omega)]
  rw [exec_edge, afterEdge_of_noise level hbits]

end Sys2Proof.Machine
end


section
/-! PROOFS. The statements about the Header Locator and the Payload Extractor (41_header_locator.md,
42_payload_extractor.md, 20_memory.md section 1). -/

namespace Sys2Proof.Machine

/-! ## A header as pairs, as a word, and by the bits it reads -/

/-- A header is nine pairs `0,1`. -/
theorem headerAt_iff_pairs (raw : Memory) (o : Nat) :
    headerAt raw o = true ↔ ∀ k, k < 9 → raw.read (o + 2 * k) = false ∧ raw.read (o + 2 * k + 1) = true := by
  rw [headerAt_iff]
  constructor
  · intro h k hk
    have hfirst := h (2 * k) (by omega)
    have hsecond := h (2 * k + 1) (by omega)
    rw [hdr_getLsbD _ (by omega)] at hfirst hsecond
    exact ⟨hfirst.trans (decide_eq_false (by omega)), hsecond.trans (decide_eq_true (by omega))⟩
  · intro h i hi
    obtain ⟨hfirst, hsecond⟩ := h (i / 2) (by omega)
    rw [hdr_getLsbD i hi]
    rcases Nat.mod_two_eq_zero_or_one i with hmod | hmod
    · rw [show o + i = o + 2 * (i / 2) by omega, hfirst, hmod]
      rfl
    · rw [show o + i = o + 2 * (i / 2) + 1 by omega, hsecond, hmod]
      rfl

/-- A header is the word 0x2AAAA whose bit `i` lies at `o + i`. -/
theorem headerAt_iff_word (raw : Memory) (o : Nat) :
    headerAt raw o = true ↔ (BitVec.ofFnLE fun i : Fin 18 => raw.read (o + i.val)) = 0x2AAAA#18 := by
  rw [headerAt_iff]
  constructor
  · intro h
    refine BitVec.eq_of_getLsbD_eq fun i hi => ?_
    rw [BitVec.getLsbD_ofFnLE, dif_pos hi]
    exact h i hi
  · intro h i hi
    have hbit := congrArg (·.getLsbD i) h
    simp only [BitVec.getLsbD_ofFnLE, dif_pos hi] at hbit
    exact hbit

/-- A header begins with the pair `0,1`. -/
theorem header_first_pair {raw : Memory} {o : Nat} (h : headerAt raw o = true) :
    raw.read o = false ∧ raw.read (o + 1) = true :=
  (headerAt_iff_pairs raw o).1 h 0 (by decide)

/-- Whether a header stands at `o` depends on the 18 bits from `o` up. -/
theorem headerAt_congr {raw raw' : Memory} {o : Nat} (h : ∀ a, o ≤ a → a < o + 18 → raw.read a = raw'.read a) :
    headerAt raw o = headerAt raw' o := by
  rw [Bool.eq_iff_iff, headerAt_iff, headerAt_iff]
  exact forall₂_congr fun i hi => by rw [h (o + i) (by omega) (by omega)]

/-- The payload at `o` depends on the 128 bits from `o` up. -/
theorem payloadAt_congr {raw raw' : Memory} {o : Nat}
    (h : ∀ a, o ≤ a → a < o + 128 → raw.read a = raw'.read a) :
    payloadAt raw o = payloadAt raw' o := by
  refine BitVec.eq_of_getLsbD_eq fun i hi => ?_
  rw [payloadAt_getLsbD, payloadAt_getLsbD, h _ (by omega) (by omega), h _ (by omega) (by omega)]

/-! ## LOCATE -/

/-- R82: LOCATE finds the header that has `k` headers below it. -/
theorem locate_eq_found (raw : Memory) (cap k o : Nat) :
    locate raw cap k = .found o ↔ o + 18 ≤ cap ∧ headerAt raw o = true ∧ matchesBelow raw o = k := by
  have hrange : ∀ j, j < scanCount cap ↔ j + 18 ≤ cap := fun j => by
    rw [scanCount, Config.hdrLen]
    omega
  simp only [locate, locateFrom_found, headersFrom_zero_eq, Nat.zero_add, hrange]
  constructor
  · rintro ⟨j, hj, rfl, hheader, hcount⟩
    exact ⟨hj, hheader, hcount⟩
  · rintro ⟨ho, hheader, hcount⟩
    exact ⟨o, ho, rfl, hheader, hcount⟩

/-- Two outcomes of LOCATE that find the same offsets are the same. -/
theorem Located.ext_found {a b : Located} (h : ∀ o, a = .found o ↔ b = .found o) : a = b := by
  cases a with
  | found o => exact ((h o).1 rfl).symm
  | notFound =>
    cases b with
    | found o => exact (h o).2 rfl
    | notFound => rfl

/-- Without a header in the scan, LOCATE finds nothing. -/
theorem locate_eq_notFound_of_no_header {raw : Memory} {cap : Nat} (k : Nat)
    (h : ∀ o, o + 18 ≤ cap → headerAt raw o ≠ true) : locate raw cap k = .notFound := by
  refine Located.ext_found fun o => ?_
  rw [locate_eq_found]
  exact ⟨fun ⟨ho, hheader, _⟩ => absurd hheader (h o ho), fun hno => nomatch hno⟩

theorem matchesBelow_congr {raw raw' : Memory} {n : Nat} (h : ∀ o, o < n → headerAt raw o = headerAt raw' o) :
    matchesBelow raw n = matchesBelow raw' n :=
  List.countP_congr fun o ho => by rw [h o (List.mem_range.1 ho)]

/-! ## The statements about LOCATE -/

/-- Settles O13: bit `i` of the header constant is `i % 2`, and the constant is 0x2AAAA. -/
theorem headerIsNinePairsZeroOne : Obligations.HeaderIsNinePairsZeroOne :=
  fun raw o => ⟨headerAt_iff_pairs raw o, headerAt_iff_word raw o⟩

/-- Settles O14: a scan from offset 0 passes the headers in ascending order and counts them. -/
theorem locateReturnsTheKthHeader : Obligations.LocateReturnsTheKthHeader :=
  fun raw cap k => ⟨locate_eq_found raw cap k, (locate_eq_notFound raw cap k).2⟩

/-- Settles O15: a header has a 1 and a 0 in it, so a uniform buffer holds none. -/
theorem notFoundExactlyWhenTooFewHeaders : Obligations.NotFoundExactlyWhenTooFewHeaders := by
  intro raw cap
  refine ⟨fun skip => (locate_eq_notFound raw cap skip).trans Nat.lt_succ_iff.symm,
    fun hzeros => ?_, fun hones => ?_⟩
  · refine locate_eq_notFound_of_no_header 0 fun o ho hheader => ?_
    simpa [hzeros (o + 1) (by omega)] using header_first_pair hheader
  · refine locate_eq_notFound_of_no_header 0 fun o ho hheader => ?_
    simpa [hones o (by omega)] using header_first_pair hheader

/-- Settles O16: the bit after a header's first one is 1, where a header has a 0; nine of ten pairs are a header from
either end; and of two neighbouring offsets at most one holds a header. -/
theorem headersOverlapButNeverTouch : Obligations.HeadersOverlapButNeverTouch := by
  refine fun raw => ⟨fun o => headerAt_succ_eq_false, fun o hpairs => ?_, matchesBelow_scanCount_le raw⟩
  simp only [headerAt_iff_pairs]
  refine ⟨fun k hk => hpairs k (by omega), fun k hk => ?_⟩
  have hnext := hpairs (k + 1) (by omega)
  rwa [show o + 2 * (k + 1) = o + 2 + 2 * k by omega] at hnext

/-- Settles O17: the last bit of a header is 1, so it lies below `cursor`. -/
theorem headersLieInThePopulatedExtent : Obligations.HeadersLieInThePopulatedExtent := by
  intro raw cap cursor hclean hcursor
  have hextent : ∀ o, headerAt raw o = true → o + 18 ≤ cursor := by
    intro o hheader
    have hlast : raw.read (o + 17) = true := ((headerAt_iff_pairs raw o).1 hheader 8 (by decide)).2
    by_contra hout
    simp [hclean (o + 17) (by omega)] at hlast
  refine ⟨hextent, fun skip => Located.ext_found fun o => ?_⟩
  rw [locate_eq_found, locate_eq_found]
  constructor
  · exact fun ⟨_, hheader, hcount⟩ => ⟨(hextent o hheader).trans hcursor, hheader, hcount⟩
  · exact fun ⟨_, hheader, hcount⟩ => ⟨hextent o hheader, hheader, hcount⟩

/-! ## EXTRACT -/

/-- R91: past the populated extent EXTRACT is out of range. -/
theorem extract_of_lt (raw : Memory) (cursor o : Nat) (h : cursor < o + 128) : extract raw cursor o = .outOfRange :=
  if_pos h

theorem headerField_getLsbD (p : Payload) {i : Nat} (hi : i < 9) :
    (headerField p).getLsbD i = p.getLsbD (55 + i) := by
  rw [headerField, BitVec.getLsbD_extractLsb', decide_eq_true hi, Bool.true_and]

/-- The header field of a frame, bit by bit. -/
theorem nineOnes_getLsbD : ∀ i, i < 9 → (0b111111111#9).getLsbD i = true := by decide

/-- R94: the nine pairs of a header extract to nine ones. -/
theorem headerField_payloadAt {raw : Memory} {o : Nat} (h : headerAt raw o = true) :
    headerField (payloadAt raw o) = 0b111111111#9 := by
  refine BitVec.eq_of_getLsbD_eq fun i hi => ?_
  rw [headerField_getLsbD _ hi, nineOnes_getLsbD i hi, show 55 + i = 63 - (8 - i) by omega,
    payloadAt_getLsbD_pair raw o (8 - i) (by omega), pairBit_eq_true]
  exact (headerAt_iff_pairs raw o).1 h (8 - i) (by omega)

/-- A payload with a header of ones is not zero. -/
theorem ne_zero_of_headerField {p : Payload} (h : headerField p = 0b111111111#9) : p ≠ 0#64 := by
  rintro rfl
  exact absurd h (by decide)

/-- Settles O20: the two branches of the extent check. -/
theorem extractFailsExactlyPastTheExtent : Obligations.ExtractFailsExactlyPastTheExtent := by
  intro raw cursor o
  refine ⟨⟨fun h => ?_, extract_of_lt raw cursor o⟩, fun h => ⟨_, extract_of_le raw cursor o h⟩⟩
  by_contra hle
  simp [extract_of_le raw cursor o (Nat.not_lt.1 hle)] at h

/-- Settles O22: each of the nine pairs of a header is the code of a one. -/
theorem headerExtractsToNineOnes : Obligations.HeaderExtractsToNineOnes :=
  fun _ _ h => ⟨headerField_payloadAt h, ne_zero_of_headerField (headerField_payloadAt h)⟩

/-- Settles O19: a header and a payload depend on the bits they span, and EDGE appends no more bits than there is room
for. -/
theorem accessesStayInsideTheBuffer : Obligations.AccessesStayInsideTheBuffer := by
  refine ⟨fun raw raw' cap skip hagree => ?_, fun raw raw' cursor o hagree => ?_,
    fun s t level ticks a hwf h ha => ?_⟩
  · have hheader : ∀ o, o + 18 ≤ cap → headerAt raw o = headerAt raw' o :=
      fun o ho => headerAt_congr fun a _ hhi => hagree a (by omega)
    refine Located.ext_found fun o => ?_
    rw [locate_eq_found, locate_eq_found]
    refine and_congr_right fun ho => ?_
    rw [hheader o ho, matchesBelow_congr fun o' ho' => hheader o' (by omega)]
  · rcases Nat.lt_or_ge cursor (o + 128) with hout | hin
    · rw [extract_of_lt raw cursor o hout, extract_of_lt raw' cursor o hout]
    · rw [extract_of_le raw cursor o hin, extract_of_le raw' cursor o hin,
        payloadAt_congr fun a _ hhi => hagree a (by omega)]
  · rw [exec_edge] at h
    cases h
    have hroom := edgeBits_le ticks s
    rw [afterEdge_read level ticks s hwf, if_neg (by omega)]

end Sys2Proof.Machine
end

section
/-! PROOFS. The statements about the Payload Validator (43_parity_validator.md). Bits 54 to 0 of a payload form eleven
lines of five bits: bit `k` is in line `k / 5` at place `k % 5`; row `r` is line `10 - r` with its parity bit at place
0, line 0 holds the column parity bits and the stop bit, and column `c` is place `c + 1` of every line. -/

namespace Sys2Proof.Machine

/-! ## Checks 2, 3 and 4 together -/

/-- The checks of VALIDATE but the first, which asks for a non-zero word. -/
def ChecksPass (p : Payload) : Prop :=
  stopBit p = false ∧ (∀ r, r < 10 → rowOk p r = true) ∧ ∀ c, c < 4 → colOk p c = true

theorem validate_eq_valid_iff_checks (p : Payload) : validate p = .valid ↔ p ≠ 0#64 ∧ ChecksPass p :=
  validate_eq_valid p

/-- Check 4 on a column, its eleven bits written out. -/
theorem colOk_eq_true (p : Payload) (c : Nat) :
    colOk p c = true ↔
      (p.getLsbD (51 + c) ^^ p.getLsbD (46 + c) ^^ p.getLsbD (41 + c) ^^ p.getLsbD (36 + c) ^^
        p.getLsbD (31 + c) ^^ p.getLsbD (26 + c) ^^ p.getLsbD (21 + c) ^^ p.getLsbD (16 + c) ^^
        p.getLsbD (11 + c) ^^ p.getLsbD (6 + c)) = p.getLsbD (1 + c) := by
  rw [← colXor_eq]
  exact beq_iff_eq

/-- Settles O24: the model's checks, each with its bits written out. -/
theorem validIsExactlyTheFourChecks : Obligations.ValidIsExactlyTheFourChecks := by
  intro p
  rw [validate_eq_valid]
  simp only [rowOk_eq_true, colOk_eq_true, stopBit]

/-! ## The checks are linear -/

theorem stopBit_xor (p q : Payload) : stopBit (p ^^^ q) = (stopBit p ^^ stopBit q) :=
  BitVec.getLsbD_xor

/-- Two sums agree exactly when their first summands agree just as their second ones do. -/
theorem xor_beq_xor : ∀ a b c d : Bool, ((a ^^ b) == (c ^^ d)) = ((a == c) == (b == d)) := by decide

/-- The sum of sums is the sum of the two sums. -/
theorem foldl_xor_xor (f g : Nat → Bool) (l : List Nat) (a b : Bool) :
    l.foldl (fun acc r => acc ^^ (f r ^^ g r)) (a ^^ b) =
      (l.foldl (fun acc r => acc ^^ f r) a ^^ l.foldl (fun acc r => acc ^^ g r) b) := by
  induction l generalizing a b with
  | nil => rfl
  | cons r l ih =>
    simp only [List.foldl_cons, ← ih]
    simp only [Bool.xor_assoc, Bool.xor_left_comm]

theorem rowXor_xor (p q : Payload) (r : Nat) : rowXor (p ^^^ q) r = (rowXor p r ^^ rowXor q r) := by
  simp only [rowXor, dataBit, BitVec.getLsbD_xor, Bool.xor_assoc, Bool.xor_left_comm]

theorem colXor_xor (p q : Payload) (c : Nat) : colXor (p ^^^ q) c = (colXor p c ^^ colXor q c) := by
  simp only [colXor, dataBit, BitVec.getLsbD_xor]
  exact foldl_xor_xor _ _ _ false false

theorem rowOk_xor (p q : Payload) (r : Nat) : rowOk (p ^^^ q) r = (rowOk p r == rowOk q r) := by
  rw [rowOk, rowXor_xor, rowParityBit, BitVec.getLsbD_xor]
  exact xor_beq_xor _ _ _ _

theorem colOk_xor (p q : Payload) (c : Nat) : colOk (p ^^^ q) c = (colOk p c == colOk q c) := by
  rw [colOk, colXor_xor, colParityBit, BitVec.getLsbD_xor]
  exact xor_beq_xor _ _ _ _

/-- A change to a word that passes the checks is seen by them exactly when it fails them itself. -/
theorem checksPass_xor {p : Payload} (hp : ChecksPass p) (e : Payload) : ChecksPass (p ^^^ e) ↔ ChecksPass e := by
  obtain ⟨hstop, hrows, hcols⟩ := hp
  refine and_congr ?_ (and_congr (forall₂_congr fun r hr => ?_) (forall₂_congr fun c hc => ?_))
  · rw [stopBit_xor, hstop, Bool.false_xor]
  · rw [rowOk_xor, hrows r hr, Bool.true_beq]
  · rw [colOk_xor, hcols c hc, Bool.true_beq]

/-! ## Single bits -/

/-- A single bit fails the row of its line. -/
theorem rowOk_bit : ∀ i, i < 55 → ∀ r, r < 10 → rowOk (1#64 <<< i) r = decide (i / 5 ≠ 10 - r) := by decide

/-- A single bit fails the column of its place. -/
theorem colOk_bit : ∀ i, i < 55 → ∀ c, c < 4 → colOk (1#64 <<< i) c = decide (i % 5 ≠ c + 1) := by decide

theorem stopBit_bit : ∀ i, i < 55 → stopBit (1#64 <<< i) = decide (i = 0) := by decide

/-- One bit fails the row of its line, or the column of its place, or it is the stop bit. -/
theorem not_checksPass_bit {i : Nat} (hi : i < 55) : ¬ ChecksPass (1#64 <<< i) := by
  rintro ⟨hstop, hrows, hcols⟩
  by_cases hline : i / 5 = 0
  · by_cases hplace : i % 5 = 0
    · rw [stopBit_bit i hi, decide_eq_false_iff_not] at hstop
      omega
    · have hcol := hcols (i % 5 - 1) (by omega)
      rw [colOk_bit i hi _ (by omega), decide_eq_true_iff] at hcol
      omega
  · have hrow := hrows (10 - i / 5) (by omega)
    rw [rowOk_bit i hi _ (by omega), decide_eq_true_iff] at hrow
    omega

/-- Two bits in different lines fail the row of the higher one, two in one line the column of the higher one. -/
theorem not_checksPass_two_bits {i j : Nat} (hij : i < j) (hj : j < 55) :
    ¬ ChecksPass (1#64 <<< i ^^^ 1#64 <<< j) := by
  rintro ⟨-, hrows, hcols⟩
  by_cases hline : i / 5 = j / 5
  · have hcol := hcols (j % 5 - 1) (by omega)
    rw [colOk_xor, colOk_bit i (by omega) _ (by omega), colOk_bit j hj _ (by omega),
      decide_eq_true (by omega), decide_eq_false (by omega)] at hcol
    simp at hcol
  · have hrow := hrows (10 - j / 5) (by omega)
    rw [rowOk_xor, rowOk_bit i (by omega) _ (by omega), rowOk_bit j hj _ (by omega),
      decide_eq_true (by omega), decide_eq_false (by omega)] at hrow
    simp at hrow

/-- A data bit and the parity bits of its row and its column pass the checks: each line and each place holds two of the
three, or none. -/
theorem checksPass_data_row_column {r c : Nat} (hr : r < 10) (hc : c < 4) :
    ChecksPass (1#64 <<< (51 - 5 * r + c) ^^^ 1#64 <<< (50 - 5 * r) ^^^ 1#64 <<< (1 + c)) := by
  refine ⟨?_, fun r' hr' => ?_, fun c' hc' => ?_⟩
  · rw [stopBit_xor, stopBit_xor, stopBit_bit _ (by omega), stopBit_bit _ (by omega), stopBit_bit _ (by omega),
      decide_eq_false (by omega), decide_eq_false (by omega), decide_eq_false (by omega)]
    rfl
  · rw [rowOk_xor, rowOk_xor, rowOk_bit _ (by omega) r' hr', rowOk_bit _ (by omega) r' hr',
      rowOk_bit _ (by omega) r' hr', show (51 - 5 * r + c) / 5 = (50 - 5 * r) / 5 by omega,
      decide_eq_true (show (1 + c) / 5 ≠ 10 - r' by omega), beq_self_eq_true]
    rfl
  · rw [colOk_xor, colOk_xor, colOk_bit _ (by omega) c' hc', colOk_bit _ (by omega) c' hc',
      colOk_bit _ (by omega) c' hc', show (51 - 5 * r + c) % 5 = (1 + c) % 5 by omega,
      decide_eq_true (show (50 - 5 * r) % 5 ≠ c' + 1 by omega)]
    simp

/-! ## The statements about errors -/

/-- Settles O25: neither one bit nor two pass the checks, and the checks are linear. -/
theorem oneAndTwoBitErrorsAreDetected : Obligations.OneAndTwoBitErrorsAreDetected := by
  intro p hvalid
  obtain ⟨-, hchecks⟩ := (validate_eq_valid_iff_checks p).1 hvalid
  have hdetect : ∀ e, ¬ ChecksPass e → validate (p ^^^ e) = .invalid := by
    intro e he
    rw [validate_eq_invalid, Ne, validate_eq_valid_iff_checks, checksPass_xor hchecks]
    exact fun h => he h.2
  refine ⟨fun i hi => hdetect _ (not_checksPass_bit hi), fun i j hij hj => ?_⟩
  rw [BitVec.xor_assoc]
  exact hdetect _ (not_checksPass_two_bits hij hj)

theorem headerField_bit : ∀ i, i < 55 → headerField (1#64 <<< i) = 0#9 := by decide

/-- An error below bit 55 does not change the header field. -/
theorem headerField_xor_bit (p : Payload) {i : Nat} (hi : i < 55) : headerField (p ^^^ 1#64 <<< i) = headerField p := by
  have hxor : headerField (p ^^^ 1#64 <<< i) = headerField p ^^^ headerField (1#64 <<< i) := BitVec.extractLsb'_xor
  rw [hxor, headerField_bit i hi, BitVec.xor_zero]

/-- Settles O26: the three bits pass the checks together, the checks are linear, and the header of ones stays. -/
theorem dataRowColumnTripleErrorIsNotDetected : Obligations.DataRowColumnTripleErrorIsNotDetected := by
  intro p r c hvalid hheader hr hc
  obtain ⟨-, hchecks⟩ := (validate_eq_valid_iff_checks p).1 hvalid
  refine (validate_eq_valid_iff_checks _).2 ⟨ne_zero_of_headerField ?_, ?_⟩
  · rw [headerField_xor_bit _ (by omega), headerField_xor_bit _ (by omega), headerField_xor_bit _ (by omega), hheader]
  · rw [BitVec.xor_assoc, BitVec.xor_assoc, ← BitVec.xor_assoc (1#64 <<< _), checksPass_xor hchecks]
    exact checksPass_data_row_column hr hc

/-- Checks 2 to 4 look at bits 54 to 0. -/
theorem checksPass_congr {p q : Payload} (h : ∀ i, i < 55 → p.getLsbD i = q.getLsbD i) :
    ChecksPass p ↔ ChecksPass q := by
  refine and_congr ?_ (and_congr (forall₂_congr fun r hr => ?_) (forall₂_congr fun c hc => ?_))
  · rw [stopBit, stopBit, h 0 (by decide)]
  · rw [rowOk_eq_true, rowOk_eq_true]
    simp only [h (50 - 5 * r + 4) (by omega), h (50 - 5 * r + 3) (by omega), h (50 - 5 * r + 2) (by omega),
      h (50 - 5 * r + 1) (by omega), h (50 - 5 * r) (by omega)]
  · rw [colOk_eq_true, colOk_eq_true]
    simp only [h (51 + c) (by omega), h (46 + c) (by omega), h (41 + c) (by omega), h (36 + c) (by omega),
      h (31 + c) (by omega), h (26 + c) (by omega), h (21 + c) (by omega), h (16 + c) (by omega),
      h (11 + c) (by omega), h (6 + c) (by omega), h (1 + c) (by omega)]

/-- Settles O27: a header bit decides at most whether the word is zero. -/
theorem headerBitsAreNotValidated : Obligations.HeaderBitsAreNotValidated := by
  refine ⟨fun p q hagree hp hq => ?_, by decide⟩
  have hsame : validate p = .valid ↔ validate q = .valid := by
    rw [validate_eq_valid_iff_checks, validate_eq_valid_iff_checks, checksPass_congr hagree]
    simp [hp, hq]
  cases hv : validate q with
  | valid => exact hsame.2 hv
  | invalid => rwa [validate_eq_invalid, Ne, hsame, ← Ne, ← validate_eq_invalid]

end Sys2Proof.Machine
end

section
/-! PROOFS. The frame of a header field and ten data nibbles; the statements that it is the one valid payload with them
(43_parity_validator.md, the property (d)) and about PROJECT and BUILD (44_tag_id_projector.md). -/

namespace Sys2Proof.Machine

/-! ## The frame -/

/-- The exclusive or of bit `c` of ten nibbles. -/
def columnParity (d : Nat → BitVec 4) (c : Nat) : Bit := (List.range 10).foldl (fun a r => a ^^ (d r).getLsbD c) false

/-- Bit `k` of the frame with the header field `h` and the nibbles `d`: the header; below it, at place 0 of a line the
parity of its nibble and at the other places the nibble; in line 0 the column parities and the stop bit 0. -/
def frameBit (h : BitVec 9) (d : Nat → BitVec 4) (k : Nat) : Bit :=
  if 55 ≤ k then h.getLsbD (k - 55)
  else if 5 ≤ k then
    if k % 5 = 0 then nibbleParity (d (10 - k / 5)) else (d (10 - k / 5)).getLsbD (k % 5 - 1)
  else if k = 0 then false
  else columnParity d (k - 1)

/-- The frame with the header field `h` and the nibbles `d`. -/
def frame (h : BitVec 9) (d : Nat → BitVec 4) : Payload := BitVec.ofFnLE fun k : Fin 64 => frameBit h d k.val

theorem frame_getLsbD (h : BitVec 9) (d : Nat → BitVec 4) {k : Nat} (hk : k < 64) :
    (frame h d).getLsbD k = frameBit h d k := by
  rw [frame, BitVec.getLsbD_ofFnLE, dif_pos hk]

theorem stopBit_frame (h : BitVec 9) (d : Nat → BitVec 4) : stopBit (frame h d) = false :=
  frame_getLsbD h d (by decide)

theorem headerField_frame (h : BitVec 9) (d : Nat → BitVec 4) : headerField (frame h d) = h := by
  refine BitVec.eq_of_getLsbD_eq fun i hi => ?_
  rw [headerField_getLsbD _ hi, frame_getLsbD h d (by omega), frameBit, if_pos (by omega), Nat.add_sub_cancel_left]

theorem dataBit_frame (h : BitVec 9) (d : Nat → BitVec 4) {r c : Nat} (hr : r < 10) (hc : c < 4) :
    dataBit (frame h d) r c = (d r).getLsbD c := by
  rw [dataBit, rowBase, frame_getLsbD h d (by omega), frameBit, if_neg (by omega), if_pos (by omega), if_neg (by omega),
    show 10 - (50 - 5 * r + 1 + c) / 5 = r by omega, show (50 - 5 * r + 1 + c) % 5 - 1 = c by omega]

theorem rowParityBit_frame (h : BitVec 9) (d : Nat → BitVec 4) {r : Nat} (hr : r < 10) :
    rowParityBit (frame h d) r = nibbleParity (d r) := by
  rw [rowParityBit, rowBase, frame_getLsbD h d (by omega), frameBit, if_neg (by omega), if_pos (by omega),
    if_pos (by omega), show 10 - (50 - 5 * r) / 5 = r by omega]

theorem colParityBit_frame (h : BitVec 9) (d : Nat → BitVec 4) {c : Nat} (hc : c < 4) :
    colParityBit (frame h d) c = columnParity d c := by
  rw [colParityBit, frame_getLsbD h d (by omega), frameBit, if_neg (by omega), if_neg (by omega), if_neg (by omega),
    Nat.add_sub_cancel_left]

/-- A data nibble is its four data bits. -/
theorem dataNibble_getLsbD_eq_dataBit (p : Payload) (r : Nat) {c : Nat} (hc : c < 4) :
    (dataNibble p r).getLsbD c = dataBit p r c := by
  rw [dataNibble, BitVec.getLsbD_extractLsb', decide_eq_true hc, Bool.true_and, dataBit]

theorem dataNibble_frame (h : BitVec 9) (d : Nat → BitVec 4) {r : Nat} (hr : r < 10) :
    dataNibble (frame h d) r = d r := by
  refine BitVec.eq_of_getLsbD_eq fun c hc => ?_
  rw [dataNibble_getLsbD_eq_dataBit _ _ hc, dataBit_frame h d hr hc]

/-- The frame's parity bits are those the checks ask for. -/
theorem checksPass_frame (h : BitVec 9) (d : Nat → BitVec 4) : ChecksPass (frame h d) := by
  refine ⟨stopBit_frame h d, fun r hr => ?_, fun c hc => ?_⟩
  · rw [rowOk, beq_iff_eq, rowParityBit_frame h d hr]
    simp [rowXor, dataBit_frame h d hr, nibbleParity]
  · rw [colOk, beq_iff_eq, colParityBit_frame h d hc]
    exact List.foldl_ext _ _ _ fun a r hr => by rw [dataBit_frame h d (List.mem_range.1 hr) hc]

/-- A frame with a header bit or a data bit set is valid. -/
theorem validate_frame {h : BitVec 9} {d : Nat → BitVec 4} (hne : h ≠ 0#9 ∨ ∃ r, r < 10 ∧ d r ≠ 0#4) :
    validate (frame h d) = .valid := by
  refine (validate_eq_valid_iff_checks _).2 ⟨fun hzero => ?_, checksPass_frame h d⟩
  obtain hheader | ⟨r, hr, hnibble⟩ := hne
  · exact hheader (by rw [← headerField_frame h d, hzero]; exact BitVec.extractLsb'_zero)
  · exact hnibble (by rw [← dataNibble_frame h d hr, hzero]; exact BitVec.extractLsb'_zero)

/-! ## The frame is the only valid payload with its header and nibbles -/

theorem nibbleParity_dataNibble (p : Payload) (r : Nat) : nibbleParity (dataNibble p r) = rowXor p r := by
  simp only [nibbleParity, rowXor, dataNibble_getLsbD_eq_dataBit p r, Nat.reduceLT]

theorem columnParity_dataNibble (p : Payload) {c : Nat} (hc : c < 4) : columnParity (dataNibble p) c = colXor p c :=
  List.foldl_ext _ _ _ fun a r _ => by rw [dataNibble_getLsbD_eq_dataBit p r hc]

/-- A word that passes the checks is the frame of its own header field and nibbles. -/
theorem eq_frame_of_checksPass {p : Payload} (hp : ChecksPass p) : p = frame (headerField p) (dataNibble p) := by
  obtain ⟨hstop, hrows, hcols⟩ := hp
  refine BitVec.eq_of_getLsbD_eq fun k hk => ?_
  rw [frame_getLsbD _ _ hk, frameBit]
  split_ifs with hheader hline hplace hzero
  · rw [headerField_getLsbD p (by omega), Nat.add_sub_cancel' hheader]
  · have hrow := hrows (10 - k / 5) (by omega)
    rw [rowOk, beq_iff_eq, rowParityBit, rowBase, show 50 - 5 * (10 - k / 5) = k by omega] at hrow
    rw [nibbleParity_dataNibble, hrow]
  · rw [dataNibble_getLsbD_eq_dataBit p _ (by omega), dataBit, rowBase,
      show 50 - 5 * (10 - k / 5) + 1 + (k % 5 - 1) = k by omega]
  · rw [hzero]
    exact hstop
  · have hcol := hcols (k - 1) (by omega)
    rw [colOk, beq_iff_eq, colParityBit, Nat.add_sub_cancel' (by omega)] at hcol
    rw [columnParity_dataNibble p (by omega), hcol]

/-- The frame looks at the ten nibbles only. -/
theorem frame_congr (h : BitVec 9) {d d' : Nat → BitVec 4} (hd : ∀ r, r < 10 → d r = d' r) :
    frame h d = frame h d' := by
  have hcol : ∀ c, columnParity d c = columnParity d' c := fun c =>
    List.foldl_ext _ _ _ fun a r hr => by rw [hd r (List.mem_range.1 hr)]
  refine BitVec.eq_of_getLsbD_eq fun k hk => ?_
  rw [frame_getLsbD h d hk, frame_getLsbD h d' hk, frameBit, frameBit, hcol]
  by_cases hline : 5 ≤ k
  · rw [hd (10 - k / 5) (by omega)]
  · rw [if_neg hline, if_neg hline]

/-- Settles O28: a valid payload is the frame of its header and nibbles, and every frame that is not zero is valid. -/
theorem dataDetermineTheValidPayload : Obligations.DataDetermineTheValidPayload := by
  refine ⟨fun p q hp hq hheader hnibbles => ?_, fun h d hne => ?_⟩
  · rw [eq_frame_of_checksPass ((validate_eq_valid_iff_checks p).1 hp).2,
      eq_frame_of_checksPass ((validate_eq_valid_iff_checks q).1 hq).2, hheader, frame_congr _ hnibbles]
  · exact ⟨frame h d, validate_frame hne, headerField_frame h d, fun r hr => dataNibble_frame h d hr⟩

/-! ## PROJECT -/

/-- Shifting nibbles in from below: nibble `k / 4` of the result is the one shifted in `k / 4` places before the
last. -/
theorem shiftIn_getLsbD (f : Nat → BitVec 4) (n : Nat) {k : Nat} (hk : k < 32) :
    ((List.range n).foldl (fun (id : TagId) j => (id <<< 4) ||| (f j).setWidth 32) 0#32).getLsbD k =
      (decide (k < 4 * n) && (f (n - 1 - k / 4)).getLsbD (k % 4)) := by
  induction n generalizing k with
  | zero => simp
  | succ n ih =>
    rw [List.range_succ, List.foldl_append, List.foldl_cons, List.foldl_nil, BitVec.getLsbD_or,
      BitVec.getLsbD_shiftLeft, BitVec.getLsbD_setWidth, decide_eq_true hk, Bool.true_and, Bool.true_and]
    by_cases hlast : k < 4
    · rw [decide_eq_true hlast, decide_eq_true (by omega), show n + 1 - 1 - k / 4 = n by omega, Nat.mod_eq_of_lt hlast]
      simp
    · have hrange : decide (k - 4 < 4 * n) = decide (k < 4 * (n + 1)) := decide_eq_decide.2 (by omega)
      rw [decide_eq_false hlast, ih (by omega), BitVec.getLsbD_of_ge (f n) k (by omega),
        show n + 1 - 1 - k / 4 = n - 1 - (k - 4) / 4 by omega, show (k - 4) % 4 = k % 4 by omega,
        hrange]
      simp

/-- Bit `k` of the identifier is bit `k % 4` of the nibble of row `9 - k / 4`. -/
theorem project_getLsbD (p : Payload) {k : Nat} (hk : k < 32) :
    (project p).getLsbD k = (dataNibble p (9 - k / 4)).getLsbD (k % 4) := by
  rw [project, shiftIn_getLsbD (fun j => dataNibble p (2 + j)) 8 hk, decide_eq_true (by omega), Bool.true_and,
    show 2 + (8 - 1 - k / 4) = 9 - k / 4 by omega]

/-- Nibble `7 - j` of the identifier is the nibble of row `2 + j`. -/
theorem project_extractLsb' (p : Payload) {j : Nat} (hj : j < 8) :
    (project p).extractLsb' (28 - 4 * j) 4 = dataNibble p (2 + j) := by
  refine BitVec.eq_of_getLsbD_eq fun c hc => ?_
  rw [BitVec.getLsbD_extractLsb', decide_eq_true hc, Bool.true_and, project_getLsbD p (by omega),
    show 9 - (28 - 4 * j + c) / 4 = 2 + j by omega, show (28 - 4 * j + c) % 4 = c by omega]

/-- Settles O29: `project` shifts the nibbles in from below, the earliest row first. -/
theorem projectPacksTheNibblesOfRowsTwoToNine : Obligations.ProjectPacksTheNibblesOfRowsTwoToNine :=
  fun p _ hj => project_extractLsb' p hj

/-- Two identifiers are equal exactly when the nibbles of rows 2 to 9 are. -/
theorem project_eq_iff (p q : Payload) :
    project p = project q ↔ ∀ r, 2 ≤ r → r < 10 → dataNibble p r = dataNibble q r := by
  constructor
  · intro h r hlo hhi
    rw [show r = 2 + (r - 2) by omega, ← project_extractLsb' p (by omega), ← project_extractLsb' q (by omega), h]
  · intro h
    refine BitVec.eq_of_getLsbD_eq fun k hk => ?_
    rw [project_getLsbD p hk, project_getLsbD q hk, h _ (by omega) (by omega)]

/-- Settles O30: identifiers are equal when the nibbles are, and nibbles when their bits are. -/
theorem projectIsInjectiveOnTheNibbles : Obligations.ProjectIsInjectiveOnTheNibbles := by
  intro p q
  rw [project_eq_iff]
  constructor
  · intro h r c hlo hhi hc
    rw [← dataNibble_getLsbD p r c hhi hc, ← dataNibble_getLsbD q r c hhi hc, h r hlo hhi]
  · intro h r hlo hhi
    refine BitVec.eq_of_getLsbD_eq fun c hc => ?_
    rw [dataNibble_getLsbD p r c hhi hc, dataNibble_getLsbD q r c hhi hc, h r c hlo hhi hc]

/-! ## BUILD -/

/-- The bits of BUILD: the header and the rows above bit 4, below them the column parities and the stop bit. -/
theorem build_getLsbD (v0 v1 : BitVec 4) (id : TagId) {k : Nat} (hk : k < 64) :
    (build v0 v1 id).getLsbD k =
      if 5 ≤ k then (buildRows v0 v1 id Config.nRows).getLsbD (k - 5)
      else if k = 0 then false else (buildColumns v0 v1 id).getLsbD (k - 1) := by
  rw [build, BitVec.getLsbD_shiftLeft, BitVec.getLsbD_or, BitVec.getLsbD_shiftLeft, BitVec.getLsbD_setWidth]
  split_ifs with hline hzero
  · rw [BitVec.getLsbD_of_ge (buildColumns v0 v1 id) (k - 1) (by omega), show k - 1 - 4 = k - 5 by omega]
    simp [hk, show ¬ k < 1 by omega, show ¬ k - 1 < 4 by omega, show k - 1 < 64 by omega]
  · simp [hzero]
  · simp [hk, hzero, show k - 1 < 4 by omega, show k - 1 < 64 by omega]

/-- BUILD gives the frame of nine header ones and its ten nibbles. -/
theorem build_eq_frame (v0 v1 : BitVec 4) (id : TagId) :
    build v0 v1 id = frame 0b111111111#9 (buildNibble v0 v1 id) := by
  refine BitVec.eq_of_getLsbD_eq fun k hk => ?_
  rw [frame_getLsbD _ _ hk, build_getLsbD v0 v1 id hk, frameBit]
  by_cases hline : 5 ≤ k
  · rw [if_pos hline, if_pos hline, buildRows_getLsbD v0 v1 id _ _ (by omega), Config.nRows]
    by_cases hheader : 55 ≤ k
    · rw [if_neg (by omega), if_pos hheader, nineOnes_getLsbD _ (by omega), decide_eq_true (by omega)]
    · rw [if_pos (by omega), if_neg hheader, buildRow_getLsbD v0 v1 id _ _ (by omega),
        show 10 - 1 - (k - 5) / 5 = 10 - k / 5 by omega, show (k - 5) % 5 = k % 5 by omega]
  · rw [if_neg hline, if_neg hline, if_neg (show ¬ 55 ≤ k by omega), buildColumns_getLsbD]
    rfl

/-- The nibbles of rows 2 to 9 of BUILD's frame are those of the identifier. -/
theorem project_build (v0 v1 : BitVec 4) (id : TagId) : project (build v0 v1 id) = id := by
  refine BitVec.eq_of_getLsbD_eq fun k hk => ?_
  rw [project_getLsbD _ hk, build_eq_frame, dataNibble_frame _ _ (by omega), show 9 - k / 4 = 7 - k / 4 + 2 by omega,
    buildNibble, BitVec.getLsbD_extractLsb', decide_eq_true (by omega), Bool.true_and,
    show 28 - 4 * (7 - k / 4) + k % 4 = k by omega]

theorem headerField_build (v0 v1 : BitVec 4) (id : TagId) : headerField (build v0 v1 id) = 0b111111111#9 := by
  rw [build_eq_frame, headerField_frame]

theorem validate_build (v0 v1 : BitVec 4) (id : TagId) : validate (build v0 v1 id) = .valid := by
  rw [build_eq_frame]
  exact validate_frame (.inl (by decide))

/-- Settles O31: BUILD gives a frame, and a frame with a header of ones is valid and has the nibbles it is made of. -/
theorem builtFrameValidatesAndProjectsBack : Obligations.BuiltFrameValidatesAndProjectsBack := by
  intro v0 v1 id
  refine ⟨validate_build v0 v1 id, project_build v0 v1 id, headerField_build v0 v1 id, ?_, ?_⟩
  · rw [build_eq_frame, dataNibble_frame _ _ (by decide)]
    rfl
  · rw [build_eq_frame, dataNibble_frame _ _ (by decide)]
    rfl

end Sys2Proof.Machine
end

section
/-! PROOFS. The statements about the accessors, CLEAR, and what each operation writes
(45_orchestrator_and_host_ops.md R130 to R132, 10_state.md section 7, 20_memory.md sections 4 and 5). -/

namespace Sys2Proof.Machine

/-! ## The next state of each operation but EDGE -/

theorem exec_readId (s : State) : exec .readId s = .next (s.returns (.id s.tagId)) := rfl

/-- READ_ID on a record whose identifier is known. -/
theorem exec_readId_of_tagId {s : State} {id : TagId} (h : s.tagId = id) :
    exec .readId s = .next { s with result := .id id } := by
  subst h
  rfl

theorem exec_readRaw (s : State) : exec .readRaw s = .next (s.returns (.raw s.tagRaw)) := rfl

theorem exec_clear (s : State) : exec .clear s = .next ((s.setRecord 0#32 0#64).returns .nothing) := rfl

theorem exec_poll_of_lt_threshold {s : State} (h : s.cursor < s.cfg.threshold) :
    exec .poll s = .next (s.returns (.ready false)) := if_pos h

/-- The two ways of a POLL. -/
theorem poll_cases {s t : State} (h : exec .poll s = .next t) :
    (s.cursor < s.cfg.threshold ∧ t = s.returns (.ready false)) ∨
      (s.cfg.threshold ≤ s.cursor ∧ t = pollDecode s) := by
  simpa using exec_cases h

/-! ## The accessors and CLEAR -/

/-- A payload whose data nibbles of rows 2 to 9 are 0 has the identifier 0. -/
theorem project_eq_zero {p : Payload} (h : ∀ r, 2 ≤ r → r < 10 → dataNibble p r = 0#4) : project p = 0#32 := by
  have hzero : project 0#64 = 0#32 := by decide
  rw [← hzero, project_eq_iff]
  exact fun r hlo hhi => (h r hlo hhi).trans (BitVec.extractLsb'_zero).symm

/-- A POLL that returns 0 keeps the record. -/
theorem poll_keeps_record_of_not_ready {s t : State} (h : exec .poll s = .next t) (hready : t.result ≠ .ready true) :
    t.tagId = s.tagId ∧ t.tagRaw = s.tagRaw := by
  obtain ⟨-, rfl⟩ | ⟨-, rfl⟩ := poll_cases h
  · exact ⟨rfl, rfl⟩
  · obtain ⟨-, hp⟩ | ⟨p, -, hp⟩ := pollDecode_cases s
    · simp [hp]
    · simp [hp] at hready

/-- Settles O39: READ_ID returns the stored identifier, which CLEAR and reset make 0, which is the projection of the
stored payload, and which a POLL that returns 0 keeps. -/
theorem readIdReturnsTheStoredIdentifier : Obligations.ReadIdReturnsTheStoredIdentifier := by
  refine ⟨exec_readId, fun c => rfl, fun s t h => ?_, fun s hrecord hzero => ?_, fun s t h hfalse => ?_⟩
  · cases h
    rfl
  · exact exec_readId_of_tagId (hrecord.1.trans (project_eq_zero hzero))
  · exact exec_readId_of_tagId (poll_keeps_record_of_not_ready h (by simp [hfalse])).1

/-- Settles O40: a valid payload has stop bit 0. -/
theorem readRawReturnsTheStoredPayload : Obligations.ReadRawReturnsTheStoredPayload := by
  refine ⟨exec_readRaw, fun s hrecord hne => ?_⟩
  obtain ⟨-, hzero | ⟨hvalid, hheader⟩⟩ := hrecord
  · exact absurd hzero hne
  · obtain ⟨-, hstop, -, -⟩ := (validate_eq_valid _).1 hvalid
    exact ⟨hheader, hstop, hvalid⟩

/-- Settles O41: CLEAR writes constants, so a second one writes what stands there. -/
theorem clearEmptiesOnlyTheRecord : Obligations.ClearEmptiesOnlyTheRecord := by
  refine ⟨exec_clear, fun s t h => ?_⟩
  cases h
  rfl

/-! ## What each operation writes -/

/-- POLL writes neither the parameters nor the pending words. -/
theorem poll_keeps_cfg_pending {s t : State} (h : exec .poll s = .next t) :
    t.cfg = s.cfg ∧ t.pending = s.pending := by
  obtain ⟨-, rfl⟩ | ⟨-, rfl⟩ := poll_cases h
  · exact ⟨rfl, rfl⟩
  · simp [pollDecode]

/-- Neither EDGE nor the reads write the record. -/
theorem exec_keeps_record {i : Instr} {s t : State} (hpoll : i ≠ .poll) (hclear : i ≠ .clear)
    (h : exec i s = .next t) : t.tagId = s.tagId ∧ t.tagRaw = s.tagRaw := by
  cases i with
  | edge level ticks =>
    rw [exec_edge] at h
    cases h
    simp
  | poll => exact absurd rfl hpoll
  | clear => exact absurd rfl hclear
  | _ =>
    cases h
    exact ⟨rfl, rfl⟩

/-- Settles O42, operation by operation: EDGE touches the buffer only, a POLL that does not return 1 keeps the record,
and the others write the record or nothing. -/
theorem onlyTheNamedOperationsWriteAnElement : Obligations.OnlyTheNamedOperationsWriteAnElement := by
  intro i s t h
  cases i with
  | edge level ticks =>
    rw [exec_edge] at h
    cases h
    simp [Instr.agent]
  | poll =>
    refine ⟨fun _ => .inl rfl, fun _ => rfl, fun hrecord => .inr ⟨rfl, ?_⟩, poll_keeps_cfg_pending h⟩
    by_contra hready
    obtain ⟨hid, hraw⟩ := poll_keeps_record_of_not_ready h hready
    exact hrecord.elim (absurd hid) (absurd hraw)
  | clear =>
    cases h
    simp
  | _ =>
    cases h
    simp

/-- Settles O43: an EDGE writes from `cursor` up, and no other operation but POLL writes the buffer. -/
theorem populatedBitsStayUntilPoll : Obligations.PopulatedBitsStayUntilPoll := by
  intro i s t hwf hpoll h
  cases i with
  | edge level ticks =>
    rw [exec_edge] at h
    cases h
    refine ⟨by rw [afterEdge_cursor]; omega, fun a ha => ?_⟩
    rw [afterEdge_read level ticks s hwf, if_neg (by omega)]
  | poll => exact absurd rfl hpoll
  | _ =>
    cases h
    exact ⟨le_rfl, fun a _ => rfl⟩

/-- A sequence of edges and reads runs to its end and keeps the record. -/
theorem runOps_keeps_record {ops : List Instr} (hpoll : .poll ∉ ops) (hclear : .clear ∉ ops) (s : State) :
    ∃ t, runOps ops s = .next t ∧ t.tagId = s.tagId ∧ t.tagRaw = s.tagRaw := by
  induction ops generalizing s with
  | nil => exact ⟨s, rfl, rfl, rfl⟩
  | cons i ops ih =>
    simp only [List.mem_cons, not_or] at hpoll hclear
    obtain ⟨t, ht⟩ := exists_exec_eq_next i s
    obtain ⟨hid, hraw⟩ := exec_keeps_record (Ne.symm hpoll.1) (Ne.symm hclear.1) ht
    obtain ⟨u, hu, huid, huraw⟩ := ih hpoll.2 hclear.2 t
    exact ⟨u, (runOps_cons i ops s t ht).trans hu, huid.trans hid, huraw.trans hraw⟩

/-- Settles O44: neither edges nor reads write the record, and its identifier is the projection of its payload. -/
theorem readsReturnAMatchingPair : Obligations.ReadsReturnAMatchingPair := by
  intro s between hrecord hpoll hclear
  obtain ⟨t, ht, -, hraw⟩ := runOps_keeps_record (ops := .readId :: between) (by simpa using hpoll)
    (by simpa using hclear) s
  refine ⟨t, _, s.tagRaw, ht, exec_readRaw t, by rw [hraw]; rfl, exec_readId_of_tagId hrecord.1⟩

/-! ## EDGE beside a foreground operation (60_exceptions.md section 3) -/

/-- EDGE does not look at the record or at what the foreground was returned. -/
theorem afterEdge_foreground (level : Bit) (ticks : Nat) (s : State) (id : TagId) (p : Payload) (r : Result) :
    afterEdge level ticks ((s.setRecord id p).returns r) = ((afterEdge level ticks s).setRecord id p).returns r := by
  cases h : s.samplerEn
  · simp [afterEdge, h]
  · simp [afterEdge, h, appendTimes_foreground]

theorem afterEdge_returns (level : Bit) (ticks : Nat) (s : State) (r : Result) :
    afterEdge level ticks (s.returns r) = (afterEdge level ticks s).returns r := by
  have h := afterEdge_foreground level ticks s s.tagId s.tagRaw r
  have hrecord : (afterEdge level ticks s).setRecord s.tagId s.tagRaw = afterEdge level ticks s := by
    rw [afterEdge_frame]
    rfl
  rwa [hrecord] at h

/-- Settles O45: a foreground operation that leaves the buffer alone writes what EDGE does not look at, and reads what
EDGE does not write; below the threshold with the appended bits counted in, POLL is one of these. -/
theorem edgeCommutesWithReadsAndClear : Obligations.EdgeCommutesWithReadsAndClear := by
  intro s level ticks i hagent want n hi
  have hn : edgeBits ticks s = n := edgeBits_eq ticks s
  obtain ⟨u, hthen, t, hfirst, hu⟩ : ∃ u, exec i (afterEdge level ticks s) = .next u ∧
      ∃ t, exec i s = .next t ∧ afterEdge level ticks t = u := by
    cases i with
    | edge => cases hagent
    | poll =>
      have hlow : s.cursor + edgeBits ticks s < s.cfg.threshold := by
        rw [hn]
        exact hi.resolve_left (· rfl)
      refine ⟨_, exec_poll_of_lt_threshold ?_, _, exec_poll_of_lt_threshold (by omega), afterEdge_returns ..⟩
      rwa [afterEdge_cursor, afterEdge_cfg]
    | readId => exact ⟨_, exec_readId _, _, exec_readId _, by rw [afterEdge_returns, afterEdge_tagId]⟩
    | readRaw => exact ⟨_, exec_readRaw _, _, exec_readRaw _, by rw [afterEdge_returns, afterEdge_tagRaw]⟩
    | clear => exact ⟨_, exec_clear _, _, exec_clear _, afterEdge_foreground ..⟩
  refine ⟨u, ?_, ?_⟩
  · rw [runOps_cons _ _ _ _ (exec_edge level ticks s), runOps_cons _ _ _ _ hthen, runOps_nil]
  · rw [runOps_cons _ _ _ _ hfirst, runOps_cons _ _ _ _ (exec_edge level ticks t), runOps_nil, hu]

end Sys2Proof.Machine
end

section
/-! PROOFS. The statements about the search and about POLL (45_orchestrator_and_host_ops.md, 41_header_locator.md on the
scan range, 70_reset_and_hazards.md section 1). -/

namespace Sys2Proof.Machine

/-! ## The search in terms of accepted offsets (R129) -/

theorem matchesBelow_mono (raw : Memory) {o o' : Nat} (h : o ≤ o') : matchesBelow raw o ≤ matchesBelow raw o' :=
  (List.range_sublist.2 h).countP_le

/-- A header counts among those below every higher offset. -/
theorem matchesBelow_lt_of_headerAt {raw : Memory} {o o' : Nat} (h : headerAt raw o = true) (hlt : o < o') :
    matchesBelow raw o < matchesBelow raw o' := by
  have hmono := matchesBelow_mono raw (Nat.succ_le_of_lt hlt)
  rw [Nat.succ_eq_add_one, matchesBelow_succ, if_pos h] at hmono
  omega

/-- A round that succeeds has an accepted offset with its ordinal. -/
theorem accepts_of_attempt_eq_success {raw : Memory} {cap cursor k : Nat} {p : Payload}
    (h : attempt raw cap cursor k = .success p) :
    ∃ o, Accepts raw cursor o ∧ matchesBelow raw o = k ∧ p = payloadAt raw o := by
  obtain ⟨o, hfound, hcandidate⟩ := (attempt_eq_success raw cap cursor k p).1 h
  obtain ⟨-, hheader, hcount⟩ := (locate_eq_found raw cap k o).1 hfound
  obtain ⟨hextent, hvalid, hp⟩ := (candidate_eq_some raw cursor o p).1 hcandidate
  exact ⟨o, ⟨hheader, hextent, hvalid⟩, hcount, hp⟩

/-- An accepted offset lies in the scan when the populated extent ends at most 110 bits above the scanned part, since a
frame is 110 bits longer than a header. -/
theorem locate_of_accepts {raw : Memory} {cap cursor o : Nat} (hscan : cursor ≤ cap + 110)
    (h : Accepts raw cursor o) : locate raw cap (matchesBelow raw o) = .found o := by
  obtain ⟨hheader, hextent, -⟩ := h
  rw [Config.rawPerFrame] at hextent
  exact (locate_eq_found raw cap _ o).2 ⟨by omega, hheader, rfl⟩

/-- The round of an accepted offset succeeds with the payload there. -/
theorem attempt_of_accepts {raw : Memory} {cap cursor o : Nat} (hscan : cursor ≤ cap + 110)
    (h : Accepts raw cursor o) : attempt raw cap cursor (matchesBelow raw o) = .success (payloadAt raw o) := by
  obtain ⟨-, hextent, hvalid⟩ := id h
  exact (attempt_eq_success raw cap cursor _ _).2
    ⟨o, locate_of_accepts hscan h, (candidate_eq_some raw cursor o _).2 ⟨hextent, hvalid, rfl⟩⟩

/-- R129: the search finds the payload at the lowest accepted offset. -/
theorem search_eq_some_iff_firstAccepted {raw : Memory} {cap cursor : Nat} (hscan : cursor ≤ cap + 110)
    (p : Payload) :
    search raw cap cursor = some p ↔ ∃ o, FirstAccepted raw cursor o ∧ p = payloadAt raw o := by
  rw [search_eq_some]
  constructor
  · rintro ⟨k, hsuccess, hfailed⟩
    obtain ⟨o, haccepts, rfl, hp⟩ := accepts_of_attempt_eq_success hsuccess
    refine ⟨o, ⟨haccepts, fun o' hlt haccepts' => ?_⟩, hp⟩
    have hfail := hfailed _ (matchesBelow_lt_of_headerAt haccepts'.1 hlt)
    rw [attempt_of_accepts hscan haccepts'] at hfail
    cases hfail
  · rintro ⟨o, ⟨haccepts, hfirst⟩, rfl⟩
    refine ⟨matchesBelow raw o, attempt_of_accepts hscan haccepts, fun k hlt => ?_⟩
    refine attempt_eq_failed_of_lt (locate_of_accepts hscan haccepts) hlt fun q hsuccess => ?_
    obtain ⟨o', haccepts', rfl, -⟩ := accepts_of_attempt_eq_success hsuccess
    refine hfirst o' ?_ haccepts'
    by_contra hle
    exact Nat.not_lt.2 (matchesBelow_mono raw (Nat.not_lt.1 hle)) hlt

/-- Among the accepted offsets there is a lowest one. -/
theorem exists_firstAccepted {raw : Memory} {cursor : Nat} (h : ∃ o, Accepts raw cursor o) :
    ∃ o, FirstAccepted raw cursor o := by
  classical
  exact ⟨Nat.find h, Nat.find_spec h, fun _ hlt => Nat.find_min h hlt⟩

/-- The search finds nothing exactly when no offset is accepted. -/
theorem search_eq_none_iff_not_accepts {raw : Memory} {cap cursor : Nat} (hscan : cursor ≤ cap + 110) :
    search raw cap cursor = none ↔ ∀ o, ¬ Accepts raw cursor o := by
  rw [Option.eq_none_iff_forall_ne_some]
  constructor
  · intro hnone o haccepts
    obtain ⟨o', hfirst⟩ := exists_firstAccepted ⟨o, haccepts⟩
    exact hnone _ ((search_eq_some_iff_firstAccepted hscan _).2 ⟨o', hfirst, rfl⟩)
  · intro hno p hp
    obtain ⟨o, ⟨haccepts, -⟩, -⟩ := (search_eq_some_iff_firstAccepted hscan p).1 hp
    exact hno o haccepts

/-- Settles O18: either search finds the payload at the lowest accepted offset. -/
theorem decodeDoesNotDependOnTheScanEnd : Obligations.DecodeDoesNotDependOnTheScanEnd := by
  intro raw cap cursor c _ hcursor hlow _
  refine Option.ext fun p => ?_
  rw [search_eq_some_iff_firstAccepted (by omega), search_eq_some_iff_firstAccepted (by omega)]

/-! ## POLL -/

theorem pollDecode_of_search_none {s : State} (h : search s.raw s.cfg.cap s.cursor = none) :
    pollDecode s = (s.clearBuffer.resumeIdle).returns (.ready false) := by
  obtain ⟨-, hpoll⟩ | ⟨p, hp, -⟩ := pollDecode_cases s
  · exact hpoll
  · simp [h] at hp

theorem pollDecode_of_search_some {s : State} {p : Payload} (h : search s.raw s.cfg.cap s.cursor = some p) :
    pollDecode s = ((s.setRecord (project p) p).clearBuffer.resumeIdle).returns (.ready true) := by
  obtain ⟨hnone, -⟩ | ⟨q, hq, hpoll⟩ := pollDecode_cases s
  · simp [h] at hnone
  · obtain rfl := Option.some.inj (h.symm.trans hq)
    exact hpoll

/-- Settles O32: the first branch of POLL. -/
theorem pollBelowThresholdOnlyReturnsZero : Obligations.PollBelowThresholdOnlyReturnsZero :=
  fun _ h => exec_poll_of_lt_threshold h

/-- Settles O34: the search finds the payload at the lowest accepted offset. -/
theorem pollRecordsTheFirstValidCandidate : Obligations.PollRecordsTheFirstValidCandidate := by
  intro s o hcursor hthreshold hfirst
  have hsearch : search s.raw s.cfg.cap s.cursor = some (payloadAt s.raw o) :=
    (search_eq_some_iff_firstAccepted (by omega) _).2 ⟨o, hfirst, rfl⟩
  rw [exec_poll_of_threshold_le s hthreshold, pollDecode_of_search_some hsearch]
  rfl

/-- Settles O35: the search finds nothing where no offset is accepted. -/
theorem exhaustedPollKeepsTheRecord : Obligations.ExhaustedPollKeepsTheRecord := by
  intro s hcursor hthreshold hno
  have hsearch := (search_eq_none_iff_not_accepts (cap := s.cfg.cap) (by omega)).2 hno
  rw [exec_poll_of_threshold_le s hthreshold, pollDecode_of_search_none hsearch]
  rfl

/-- Settles O36: below the threshold nothing is decoded; from it on, a tag is exactly when an offset is accepted. -/
theorem readyMeansThisPollDecoded : Obligations.ReadyMeansThisPollDecoded := by
  intro s hcursor
  rcases Nat.lt_or_ge s.cursor (s.cfg.cap - 10) with hlow | hhigh
  · refine ⟨_, false, pollBelowThresholdOnlyReturnsZero s hlow, rfl, ?_⟩
    simp only [Bool.false_eq_true, false_iff]
    omega
  · by_cases hsome : ∃ o, Accepts s.raw s.cursor o
    · obtain ⟨o, hfirst⟩ := exists_firstAccepted hsome
      exact ⟨_, true, pollRecordsTheFirstValidCandidate s o hcursor hhigh hfirst, rfl,
        iff_of_true rfl ⟨hhigh, hsome⟩⟩
    · exact ⟨_, false, exhaustedPollKeepsTheRecord s hcursor hhigh (not_exists.1 hsome), rfl,
        iff_of_false Bool.false_ne_true fun h => hsome h.2⟩

/-- Settles O50: CLEAR empties the record, and a POLL that finds nothing resets the rest. -/
theorem clearAndAFailedDecodeEqualReset : Obligations.ClearAndAFailedDecodeEqualReset := by
  intro s hcursor hthreshold hno
  refine ⟨_, (runOps_cons _ _ _ _ (exec_clear s)).trans
    (runOps_cons _ _ _ _ (exhaustedPollKeepsTheRecord _ hcursor hthreshold hno)), rfl⟩

end Sys2Proof.Machine
end

section
/-! PROOFS. The statements about the POLL split into steps (20_memory.md section 5). -/

namespace Sys2Proof.Machine

/-! ## The steps of a split POLL -/

theorem splitAdvances_add (m n : Nat) (x : SplitState) :
    splitAdvances (m + n) x = splitAdvances n (splitAdvances m x) := by
  induction m generalizing x with
  | zero => rw [Nat.zero_add, splitAdvances]
  | succ m ih => rw [Nat.succ_add, splitAdvances, splitAdvances, ih]

theorem splitEnter_of_threshold_le {s : State} (h : s.cfg.threshold ≤ s.cursor) :
    splitEnter s = { core := s.enterDecoding, phase := some (.candidate 0) } := if_neg (Nat.not_lt.2 h)

/-- Every failed candidate takes one step. -/
theorem splitAdvances_failed (d : State) (k skip : Nat)
    (h : ∀ k', k' < k → attempt d.raw d.cfg.cap d.cursor (skip + k') = .failed) :
    splitAdvances k { core := d, phase := some (.candidate skip) } =
      { core := d, phase := some (.candidate (skip + k)) } := by
  induction k generalizing skip with
  | zero => rfl
  | succ k ih =>
    have hfirst : attempt d.raw d.cfg.cap d.cursor skip = .failed := h 0 (Nat.succ_pos k)
    have hstep : splitAdvance { core := d, phase := some (.candidate skip) } =
        { core := d, phase := some (.candidate (skip + 1)) } := by
      simp only [splitAdvance, hfirst]
    rw [splitAdvances, hstep, ih (skip + 1), Nat.add_right_comm, Nat.add_assoc]
    intro k' hk'
    rw [Nat.add_assoc, Nat.add_comm 1]
    exact h (k' + 1) (Nat.succ_lt_succ hk')

/-- After the last candidate: clear, enable, return 0. -/
theorem splitAdvances_exhausted (d : State) (k : Nat) (h : attempt d.raw d.cfg.cap d.cursor k = .exhausted) :
    splitAdvances 3 { core := d, phase := some (.candidate k) } =
      { core := (d.clearBuffer.resumeIdle).returns (.ready false), phase := none } := by
  simp only [splitAdvances, splitAdvance, h]

/-- After a successful candidate: record, clear, enable, return 1. -/
theorem splitAdvances_success (d : State) (k : Nat) (p : Payload)
    (h : attempt d.raw d.cfg.cap d.cursor k = .success p) :
    splitAdvances 4 { core := d, phase := some (.candidate k) } =
      { core := ((d.setRecord (project p) p).clearBuffer.resumeIdle).returns (.ready true), phase := none } := by
  simp only [splitAdvances, splitAdvance, h]

/-- A search that finds nothing fails at every header of the buffer and then is exhausted. -/
theorem attempts_of_search_none {raw : Memory} {cap cursor : Nat} (h : search raw cap cursor = none) :
    (∀ k, k < matchesBelow raw (scanCount cap) → attempt raw cap cursor k = .failed) ∧
      attempt raw cap cursor (matchesBelow raw (scanCount cap)) = .exhausted := by
  refine ⟨fun k hk => ?_, ?_⟩
  · obtain ⟨o, hfound⟩ := (exists_locate_eq_found raw cap k).2 hk
    exact (attempt_eq_failed raw cap cursor k).2 ⟨o, hfound, (search_eq_none raw cap cursor).1 h k o hfound⟩
  · rw [attempt_eq_exhausted, locate_eq_notFound]

/-- Settles O37: the candidates before the last one take a step each, and what follows takes at most four. -/
theorem splitPollComesToTheAtomicPoll : Obligations.SplitPollComesToTheAtomicPoll := by
  intro s t hpoll
  obtain ⟨hlow, rfl⟩ | ⟨hhigh, rfl⟩ := poll_cases hpoll
  · exact ⟨0, Nat.zero_le _, if_pos hlow⟩
  · have hbound := matchesBelow_scanCount_le s.raw s.cfg.cap
    rw [splitEnter_of_threshold_le hhigh]
    obtain ⟨hsearch, ht⟩ | ⟨p, hsearch, ht⟩ := pollDecode_cases s
    · obtain ⟨hfailed, hexhausted⟩ := attempts_of_search_none hsearch
      refine ⟨matchesBelow s.raw (scanCount s.cfg.cap) + 3, by omega, ?_⟩
      rw [splitAdvances_add, splitAdvances_failed s.enterDecoding _ 0 (by simpa using hfailed), Nat.zero_add,
        splitAdvances_exhausted s.enterDecoding _ hexhausted, ht]
      rfl
    · obtain ⟨k, hsuccess, hfailed⟩ := (search_eq_some _ _ _ p).1 hsearch
      obtain ⟨o, hfound, -⟩ := (attempt_eq_success _ _ _ _ p).1 hsuccess
      have hk := (exists_locate_eq_found _ _ _).1 ⟨o, hfound⟩
      refine ⟨k + 4, by omega, ?_⟩
      rw [splitAdvances_add, splitAdvances_failed s.enterDecoding _ 0 (by simpa using hfailed), Nat.zero_add,
        splitAdvances_success s.enterDecoding _ p hsuccess, ht]
      rfl

/-! ## Edges inside a split POLL -/

/-- While a POLL is in progress the sampler is off and the orchestrator Decoding. -/
def Held (x : SplitState) : Prop := x.phase ≠ none → x.core.samplerEn = false ∧ x.core.orchState = .decoding

theorem held_splitEnter (s : State) : Held (splitEnter s) := by
  unfold splitEnter
  split
  · exact fun h => absurd rfl h
  · exact fun _ => ⟨rfl, rfl⟩

theorem held_splitAdvance {x : SplitState} (h : Held x) : Held (splitAdvance x) := by
  obtain ⟨d, phase⟩ := x
  cases phase with
  | none => exact h
  | some phase =>
    have hd : d.samplerEn = false ∧ d.orchState = .decoding := h (Option.some_ne_none phase)
    cases phase with
    | candidate skip =>
      simp only [splitAdvance]
      split <;> exact fun _ => hd
    | record p => exact fun _ => hd
    | clear ready => exact fun _ => hd
    | enable ready => exact fun hphase => absurd rfl hphase

theorem held_splitAdvances (n : Nat) {x : SplitState} (h : Held x) : Held (splitAdvances n x) := by
  induction n generalizing x with
  | zero => exact h
  | succ n ih => exact ih (held_splitAdvance h)

/-- An edge runs EDGE on the block and leaves the POLL's phase. -/
theorem splitEvent_edge (level : Bit) (ticks : Nat) (x : SplitState) :
    splitEvent (.edge level ticks) x = { core := afterEdge level ticks x.core, phase := x.phase } := by
  simp only [splitEvent, splitIssue, Instr.agent, exec_edge, SplitState.lift]

/-- Inside a POLL an edge changes nothing. -/
theorem splitEvent_edge_of_held {x : SplitState} (h : Held x) (hphase : x.phase ≠ none) (level : Bit) (ticks : Nat) :
    splitEvent (.edge level ticks) x = x := by
  rw [splitEvent_edge, afterEdge_of_disabled level ticks (h hphase).1]

/-- A POLL that has ended stays ended. -/
theorem splitRun_phase_none (es : List SplitEvent) {x : SplitState} (h : x.phase = none) :
    (splitRun es x).phase = none := by
  induction es generalizing x with
  | nil => exact h
  | cons e es ih =>
    refine ih (x := splitEvent e x) ?_
    cases e with
    | advance => rw [splitEvent, splitAdvance, h]; exact h
    | edge level ticks => rw [splitEvent_edge]; exact h

/-- While the POLL is in progress, the events come to its own steps. -/
theorem splitRun_eq_splitAdvances (es : List SplitEvent) {x : SplitState} (h : Held x)
    (hphase : (splitRun es x).phase ≠ none) : splitRun es x = splitAdvances (es.count .advance) x := by
  induction es generalizing x with
  | nil => rfl
  | cons e es ih =>
    cases e with
    | advance =>
      rw [List.count_cons_self]
      exact ih (held_splitAdvance h) hphase
    | edge level ticks =>
      have hx : x.phase ≠ none := fun hnone => hphase (splitRun_phase_none _ hnone)
      have hcons : splitRun (.edge level ticks :: es) x = splitRun es x := by
        conv_rhs => rw [← splitEvent_edge_of_held h hx level ticks]
        rfl
      rw [hcons] at hphase ⊢
      rw [List.count_cons_of_ne (by simp), ih h hphase]

/-- Settles O38: the sampler is off while the POLL is in progress, so the edges change nothing, and the orchestrator is
Decoding, so a foreground operation is refused. -/
theorem edgesInsideASplitPollLeaveNoTrace : Obligations.EdgesInsideASplitPollLeaveNoTrace := by
  intro s es hphase
  have hrun := splitRun_eq_splitAdvances es (held_splitEnter s) hphase
  have hheld : Held (splitRun es (splitEnter s)) := hrun ▸ held_splitAdvances _ (held_splitEnter s)
  obtain ⟨hsampler, horch⟩ := hheld hphase
  refine ⟨hrun, hsampler, horch, fun i hagent => ?_⟩
  simp only [splitIssue, hagent, horch, if_true]

end Sys2Proof.Machine
end

section
/-! PROOFS. The statements about reset, the invariants and reachable states (10_state.md sections 3 and 5). -/

namespace Sys2Proof.Machine

/-! ## Reset -/

/-- The empty record. -/
theorem recordOk_zero : RecordOk 0#32 0#64 := ⟨by decide, .inl rfl⟩

theorem inv_resetWith {c : Config} (h : c.wf) : Inv (State.resetWith c) where
  params := h
  canonical := Memory.wf_cleared
  bounded := Nat.zero_le _
  clean _ _ := rfl
  record := recordOk_zero
  sampling := rfl
  idle := rfl

/-- Settles O46: the reset state is the table. -/
theorem resetLeavesTheTableOfValues : Obligations.ResetLeavesTheTableOfValues :=
  ⟨fun _ => ⟨fun _ => rfl, rfl, rfl, rfl, rfl, rfl⟩, rfl⟩

/-- Settles O47; the default parameters are legal. -/
theorem resetMeetsTheInvariants : Obligations.ResetMeetsTheInvariants :=
  ⟨fun _ => inv_resetWith, inv_resetWith (by decide)⟩

/-! ## Every operation keeps the invariants -/

/-- `pending` is free: what is issued does not matter to the invariants. -/
theorem Inv.withPending {s : State} (h : Inv s) (ws : List Nat) : Inv { s with pending := ws } := { h with }

theorem Inv.returns {s : State} (h : Inv s) (r : Result) : Inv (s.returns r) := { h with }

theorem Inv.setRecord {s : State} (h : Inv s) {id : TagId} {p : Payload} (hrecord : RecordOk id p) :
    Inv (s.setRecord id p) :=
  { h with record := hrecord }

/-- The end of a decoding POLL empties the buffer, enables the sampler and goes Idle. -/
theorem Inv.clearAndResume {s : State} (h : Inv s) : Inv s.clearBuffer.resumeIdle where
  params := h.params
  canonical := Memory.wf_cleared
  bounded := Nat.zero_le _
  clean _ _ := rfl
  record := h.record
  sampling := rfl
  idle := rfl

/-- EDGE appends below the capacity, and writes no bit from the new `cursor` up. -/
theorem Inv.afterEdge {s : State} (h : Inv s) (level : Bit) (ticks : Nat) : Inv (afterEdge level ticks s) where
  params := by rw [afterEdge_cfg]; exact h.params
  canonical := afterEdge_wf level ticks s h.canonical
  bounded := by
    have hbounded := h.bounded
    have hroom := edgeBits_le ticks s
    rw [afterEdge_cursor, afterEdge_cfg]
    omega
  clean a ha := by
    rw [afterEdge_cursor] at ha
    rw [afterEdge_read level ticks s h.canonical, if_neg (by omega)]
    exact h.clean a (by omega)
  record := by rw [afterEdge_tagId, afterEdge_tagRaw]; exact h.record
  sampling := by rw [afterEdge_samplerEn]; exact h.sampling
  idle := by rw [afterEdge_orchState]; exact h.idle

/-- What a search finds is fit for the record: it is valid and its header extracts to ones. -/
theorem recordOk_of_search {raw : Memory} {cap cursor : Nat} {p : Payload} (h : search raw cap cursor = some p) :
    RecordOk (project p) p := by
  obtain ⟨k, hsuccess, -⟩ := (search_eq_some raw cap cursor p).1 h
  obtain ⟨o, ⟨hheader, -, hvalid⟩, -, rfl⟩ := accepts_of_attempt_eq_success hsuccess
  exact ⟨rfl, .inr ⟨hvalid, headerField_payloadAt hheader⟩⟩

theorem Inv.pollDecode {s : State} (h : Inv s) : Inv (pollDecode s) := by
  obtain ⟨-, hpoll⟩ | ⟨p, hsearch, hpoll⟩ := pollDecode_cases s
  · exact hpoll ▸ h.clearAndResume.returns _
  · exact hpoll ▸ (h.setRecord (recordOk_of_search hsearch)).clearAndResume.returns _

theorem Inv.exec {i : Instr} {s t : State} (h : Inv s) (hexec : exec i s = .next t) : Inv t := by
  obtain ⟨level, ticks, -, rfl⟩ | ⟨-, -, rfl⟩ | ⟨-, -, rfl⟩ | ⟨-, rfl⟩ | ⟨-, rfl⟩ | ⟨-, rfl⟩ := exec_cases hexec
  · exact h.afterEdge level ticks
  · exact h.returns _
  · exact h.pollDecode
  · exact h.returns _
  · exact h.returns _
  · exact (h.setRecord recordOk_zero).returns _

/-- Settles O48: a step is idle or one operation, and every operation keeps the invariants. -/
theorem everyStepKeepsTheInvariants : Obligations.EveryStepKeepsTheInvariants := by
  intro s t h hstep
  obtain ⟨-, rfl⟩ | ⟨w, rest, i, -, -, hexec⟩ := step_cases hstep
  · exact h
  · exact (h.withPending rest).exec hexec

/-! ## Reachable states -/

/-- No step writes the parameters. -/
theorem step_keeps_cfg {s t : State} (h : step s = .next t) : t.cfg = s.cfg := by
  obtain ⟨-, rfl⟩ | ⟨w, rest, i, -, -, hexec⟩ := step_cases h
  · rfl
  · obtain ⟨-, -, -, hcfg, -⟩ := onlyTheNamedOperationsWriteAnElement i _ t hexec
    exact hcfg

/-- Settles O49: reset meets the invariants, issuing a word does not touch them, and every step keeps them. -/
theorem reachableStatesMeetTheInvariants : Obligations.ReachableStatesMeetTheInvariants := by
  intro c s hc hs
  suffices hinv : Inv s ∧ s.cfg = c from ⟨hinv.1, hinv.2, fun f => f.rec⟩
  induction hs with
  | reset => exact ⟨inv_resetWith hc, rfl⟩
  | issue s w _ ih =>
    obtain ⟨hinv, hcfg⟩ := ih
    exact ⟨hinv.withPending _, hcfg⟩
  | step s t _ hstep ih =>
    obtain ⟨hinv, hcfg⟩ := ih
    exact ⟨everyStepKeepsTheInvariants s t hinv hstep, (step_keeps_cfg hstep).trans hcfg⟩

end Sys2Proof.Machine
end

section
/-! PROOFS. From edges to a record (30_encoding.md sections 2, 4 and 7, 95_test_vectors.md SP6). -/

namespace Sys2Proof.Machine

/-! ## The edges of a bit string -/

/-- APPEND of each bit of a string in turn. -/
def appendBits : List Bit → State → State
  | [], s => s
  | b :: bs, s => appendBits bs (append b s)

/-- APPEND of a bit string touches `raw` and `cursor` only. -/
theorem appendBits_frame (bits : List Bit) (s : State) :
    appendBits bits s = { s with raw := (appendBits bits s).raw, cursor := (appendBits bits s).cursor } := by
  induction bits generalizing s with
  | nil => rfl
  | cons b bits ih =>
    refine (ih (append b s)).trans ?_
    simp [appendBits]

theorem appendBits_cursor (bits : List Bit) (s : State) (h : s.cursor + bits.length ≤ s.cfg.cap) :
    (appendBits bits s).cursor = s.cursor + bits.length := by
  induction bits generalizing s with
  | nil => rfl
  | cons b bits ih =>
    rw [List.length_cons] at h ⊢
    have hcursor : (append b s).cursor = s.cursor + 1 := by rw [append_of_lt b s (by omega)]
    rw [appendBits, ih _ (by rw [hcursor, append_cfg]; omega), hcursor]
    omega

/-- The bits stand at `cursor` onward; every other index holds what it held. -/
theorem appendBits_read (bits : List Bit) (s : State) (hwf : s.raw.wf) (h : s.cursor + bits.length ≤ s.cfg.cap)
    (a : Nat) :
    (appendBits bits s).raw.read a =
      if s.cursor ≤ a ∧ a < s.cursor + bits.length then bits.getD (a - s.cursor) false else s.raw.read a := by
  induction bits generalizing s with
  | nil => rw [if_neg (by simp)]; rfl
  | cons b bits ih =>
    rw [List.length_cons] at h ⊢
    have hcursor : (append b s).cursor = s.cursor + 1 := by rw [append_of_lt b s (by omega)]
    rw [appendBits, ih _ (append_wf b s hwf) (by rw [hcursor, append_cfg]; omega), hcursor, append_read b s hwf]
    rcases Nat.lt_trichotomy a s.cursor with hlt | rfl | hgt
    · rw [if_neg (by omega), if_neg (by omega), if_neg (by omega)]
    · rw [if_neg (by omega), if_pos (by omega), if_pos (by omega), Nat.sub_self, List.getD_cons_zero]
    · rw [show a - s.cursor = a - (s.cursor + 1) + 1 by omega, List.getD_cons_succ,
        if_neg (show ¬ (a = s.cursor ∧ _) by omega)]
      exact if_congr (by omega) rfl rfl

theorem exec_shortEdge (b : Bit) {s : State} (h : s.samplerEn = true) :
    exec (shortEdge b) s = .next (append b s) := by
  rw [shortEdge, exec_edge, afterEdge, if_pos h]
  rfl

theorem exec_longEdge (b : Bit) {s : State} (h : s.samplerEn = true) :
    exec (longEdge b) s = .next (append b (append b s)) := by
  rw [longEdge, exec_edge, afterEdge, if_pos h]
  rfl

/-- R66: the edges of RUNS append the bit string, a run of one by a short edge and a run of two by a long one. -/
theorem runOps_runs {bits : List Bit} {ops : List Instr} (hruns : runs bits = some ops) {s : State}
    (hs : s.samplerEn = true) : runOps ops s = .next (appendBits bits s) := by
  induction bits using runs.induct generalizing ops s with
  | case1 =>
    cases hruns
    rfl
  | case2 a =>
    cases hruns
    rw [runOps_cons _ _ _ _ (exec_shortEdge a hs)]
    rfl
  | case3 a rest hlong => simp [runs, hlong] at hruns
  | case4 a rest hlong ih =>
    simp only [runs, hlong, if_true, if_false, Option.map_eq_some_iff] at hruns
    obtain ⟨ops, hops, rfl⟩ := hruns
    rw [runOps_cons _ _ _ _ (exec_longEdge a hs), ih hops (by simpa using hs)]
    rfl
  | case5 a b rest hne ih =>
    simp only [runs, hne, if_false, Option.map_eq_some_iff] at hruns
    obtain ⟨ops, hops, rfl⟩ := hruns
    rw [runOps_cons _ _ _ _ (exec_shortEdge a hs), ih hops (by simpa using hs)]
    rfl

/-- Settles O51: running the edges is APPEND of each bit in turn. -/
theorem runsAppendTheirBits : Obligations.RunsAppendTheirBits := by
  intro bits ops s hruns hs hwf hroom
  refine ⟨(appendBits bits s).raw, ?_, fun k hk => ?_, fun a ha => ?_⟩
  · rw [runOps_runs hruns hs, ← appendBits_cursor bits s hroom, ← appendBits_frame]
  · rw [appendBits_read bits s hwf hroom, if_pos (by omega), Nat.add_sub_cancel_left]
  · rw [appendBits_read bits s hwf hroom, if_neg (by omega)]

/-! ## The raw bits of a payload -/

theorem length_pairs (f : Nat → Bit) (n : Nat) : ((List.range n).flatMap fun t => bitPair (f t)).length = 2 * n := by
  simp [bitPair, Nat.mul_comm]

/-- Bits `2t` and `2t+1` of a sequence of pairs are its pair `t`. -/
theorem getD_pairs (f : Nat → Bit) {n t : Nat} (ht : t < n) :
    ((List.range n).flatMap fun t => bitPair (f t)).getD (2 * t) false = !f t ∧
      ((List.range n).flatMap fun t => bitPair (f t)).getD (2 * t + 1) false = f t := by
  induction n with
  | zero => omega
  | succ n ih =>
    have hlength := length_pairs f n
    rw [List.range_succ, List.flatMap_append]
    rcases Nat.lt_or_ge t n with hlt | hge
    · rw [List.getD_append _ _ _ _ (by omega), List.getD_append _ _ _ _ (by omega)]
      exact ih hlt
    · rw [List.getD_append_right _ _ _ _ (by omega), List.getD_append_right _ _ _ _ (by omega), hlength,
        show 2 * t - 2 * n = 0 by omega, show 2 * t + 1 - 2 * n = 1 by omega, show t = n by omega]
      exact ⟨rfl, rfl⟩

theorem length_rawFrame (p : Payload) : (rawFrame p).length = 128 := length_pairs _ 64

/-- R53, R57: pair `t` of the raw frame sends payload bit `63 - t`. -/
theorem rawFrame_pair (p : Payload) {t : Nat} (ht : t < 64) :
    (rawFrame p).getD (2 * t) false = !p.getLsbD (63 - t) ∧
      (rawFrame p).getD (2 * t + 1) false = p.getLsbD (63 - t) :=
  getD_pairs (fun t => p.getLsbD (63 - t)) ht

/-- Settles O52: pair `t` of the frame decodes to the bit it sends, and a one is the pair `0,1` of the header. -/
theorem rawFrameExtractsBack : Obligations.RawFrameExtractsBack := by
  intro raw o p hraw
  have hpair : ∀ t, t < 64 → raw.read (o + 2 * t) = !p.getLsbD (63 - t) ∧
      raw.read (o + 2 * t + 1) = p.getLsbD (63 - t) := fun t ht => by
    rw [Nat.add_assoc, hraw (2 * t) (by omega), hraw (2 * t + 1) (by omega)]
    exact rawFrame_pair p ht
  constructor
  · refine BitVec.eq_of_getLsbD_eq fun i hi => ?_
    obtain ⟨hfirst, hsecond⟩ := hpair (63 - i) (by omega)
    rw [payloadAt_getLsbD, decide_eq_true hi, hfirst, hsecond, show 63 - (63 - i) = i by omega]
    simp [pairBit]
  · intro hheader
    rw [headerAt_iff_pairs]
    intro k hk
    have hone : p.getLsbD (63 - k) = true := by
      rw [show 63 - k = 55 + (8 - k) by omega, ← headerField_getLsbD p (by omega), hheader]
      exact nineOnes_getLsbD (8 - k) (by omega)
    simpa [hone] using hpair k (by omega)

/-! ## The end-to-end scenario -/

/-- A second sequence of operations runs from where the first one ends. -/
theorem runOps_append {ops : List Instr} {s t : State} (h : runOps ops s = .next t) (ops' : List Instr) :
    runOps (ops ++ ops') s = runOps ops' t := by
  induction ops generalizing s with
  | nil =>
    cases h
    rfl
  | cons i ops ih =>
    obtain ⟨u, hu⟩ := exists_exec_eq_next i s
    rw [runOps_cons _ _ _ _ hu] at h
    rw [List.cons_append, runOps_cons _ _ _ _ hu, ih h]

/-- Which offsets are accepted depends on the bits of the buffer, not on how it lists them. -/
theorem accepts_congr {raw raw' : Memory} (h : ∀ a, raw.read a = raw'.read a) (cursor o : Nat) :
    Accepts raw cursor o ↔ Accepts raw' cursor o := by
  rw [Accepts, Accepts, headerAt_congr fun a _ _ => h a, payloadAt_congr fun a _ _ => h a]

/-- From reset, the edges of a bit string that fits fill the buffer with that string. -/
theorem runOps_runs_resetWith {c : Config} {bits : List Bit} {ops : List Instr} (hruns : runs bits = some ops)
    (hroom : bits.length ≤ c.cap) :
    ∃ s, runOps ops (State.resetWith c) = .next s ∧ s.cfg = c ∧ s.cursor = bits.length ∧
      ∀ a, s.raw.read a = (Memory.ofBits 0 bits).read a := by
  obtain ⟨raw, hrun, hbits, hrest⟩ := runsAppendTheirBits bits ops (State.resetWith c) hruns rfl Memory.wf_cleared
    ((Nat.zero_add _).trans_le hroom)
  refine ⟨_, hrun, rfl, Nat.zero_add _, fun a => ?_⟩
  rw [Memory.read_ofBits, decide_eq_true (Nat.zero_le a), Bool.true_and, Nat.sub_zero]
  rcases Nat.lt_or_ge a bits.length with hlt | hge
  · rw [← hbits a hlt]
    exact congrArg raw.read (Nat.zero_add a).symm
  · rw [List.getD_eq_default _ _ hge]
    exact hrest a (.inr ((Nat.zero_add _).trans_le hge))

/-- The frame of an identifier inside a bit string is accepted where it begins. -/
theorem accepts_rawFrame {raw : Memory} {cursor o : Nat} {p : Payload} (hvalid : validate p = .valid)
    (hheader : headerField p = 0b111111111#9) (hcursor : o + 128 ≤ cursor)
    (hraw : ∀ k, k < 128 → raw.read (o + k) = (rawFrame p).getD k false) :
    Accepts raw cursor o ∧ payloadAt raw o = p := by
  obtain ⟨hpayload, hat⟩ := rawFrameExtractsBack raw o p hraw
  exact ⟨⟨hat hheader, hcursor, hpayload ▸ hvalid⟩, hpayload⟩

/-- Settles O53: the edges append the bit string, the lowest accepted offset is that of the frame in it, and PROJECT of
the built frame is the identifier. -/
theorem edgesOfAFrameDecodeToItsIdentifier : Obligations.EdgesOfAFrameDecodeToItsIdentifier := by
  intro c v0 v1 id before after ops _ bits hruns hthreshold hroom hbelow
  have hlength : bits.length = before.length + 128 + after.length := by
    simp [bits, length_rawFrame, Nat.add_assoc]
  obtain ⟨s, hrun, hcfg, hcursor, hread⟩ := runOps_runs_resetWith hruns hroom
  have hframe : ∀ k, k < 128 → s.raw.read (before.length + k) = (rawFrame (build v0 v1 id)).getD k false := by
    intro k hk
    rw [hread, Memory.read_ofBits, decide_eq_true (Nat.zero_le _), Bool.true_and, Nat.sub_zero,
      List.getD_append _ _ _ _ (by rw [List.length_append, length_rawFrame]; omega),
      List.getD_append_right _ _ _ _ (Nat.le_add_right _ _), Nat.add_sub_cancel_left]
  obtain ⟨haccepts, hpayload⟩ := accepts_rawFrame (cursor := s.cursor) (validate_build v0 v1 id)
    (headerField_build v0 v1 id) (by omega) hframe
  have hfirst : FirstAccepted s.raw s.cursor before.length :=
    ⟨haccepts, fun o ho h => hbelow o ho (hcursor ▸ (accepts_congr hread s.cursor o).1 h)⟩
  have hpoll := pollRecordsTheFirstValidCandidate s before.length (by rw [hcursor, hcfg]; exact hroom)
    (by rw [hcursor, hcfg]; exact hthreshold) hfirst
  rw [hpayload, project_build] at hpoll
  exact ⟨_, (runOps_append hrun [.poll]).trans (runOps_cons _ _ _ _ hpoll), rfl, rfl, rfl, rfl, rfl⟩

end Sys2Proof.Machine
end
